-- ==== Sys2Proof/Word.lean ====
section
/-! DEFINITION. The words of the core (spec/00_scope.md R4, R5): bytes, line levels, port words, cursors.
Nothing in the core is signed and no byte is ever added to another. -/

namespace Sys2Proof

/-- A cell, a character, a command or data byte, the data bus (`CELL_W` = 8, R4, R5). -/
abbrev Byte := BitVec 8

/-- The level of a one-bit line or register: `true` is 1, `false` is 0 (R14). -/
abbrev Level := Bool

/-- A word of Format H, Format T or Format P: 10 bits (R46, R48, R49). -/
abbrev PortWord := BitVec 10

/-- A write cursor: a register of `CUR_W` = 5 bits (R11; log 16). -/
abbrev Cursor := BitVec 5

/-- The two rows of the display and of the Line Buffer (R9, R10). -/
inductive Row where
  /-- Row 0, "top, physically addressed first". -/
  | primary
  /-- Row 1, "bottom". -/
  | secondary
  deriving DecidableEq, Repr

/-- The tag of a transfer: which target of the display controller the byte is for (R33, R62). -/
inductive Tag where
  | cmd
  | data
  deriving DecidableEq, Repr

end Sys2Proof
end

