-- ==== Sys2Proof/Config.lean ====
section
/-! DEFINITION. The implementation parameters of spec/00_scope.md R4: the fixed ones as definitions, the
configuration flags and the open ones as fields of one record (constants of an instance, R17), and the one free
value. -/

namespace Sys2Proof

/-- The durations of R4, by name. An event carries the name; its minimum is `Duration.minMicros` (R131). -/
inductive Duration where
  /-- `T_EN`, the enable pulse. -/
  | tEn
  /-- `T_POWERON`, the power-on settle time. -/
  | tPoweron
  /-- `T_CLEAR`, the clear settle time. -/
  | tClear
  deriving DecidableEq, Repr

/-- The least time of a wait, in microseconds (R4, R130): 80 us, 100 ms, 500 ms. -/
def Duration.minMicros : Duration → Nat
  | .tEn => 80
  | .tPoweron => 100000
  | .tClear => 500000

/-- The parameters that R4 marks *config* or *open*. Never changed by any operation (R17); the model takes them as
data, so that every statement holds for every value of them. DESIGN CHOICE (log 1). -/
structure Config where
  /-- `MIRROR`: apply the bit-order transform to every byte put on the data bus. -/
  mirror : Bool
  /-- `WDT_EN`: pulse the watchdog hook around settle waits. -/
  wdtEn : Bool
  cmdFn2l : Byte
  cmdEntry : Byte
  cmdOnBlink : Byte
  cmdBlinkOff : Byte
  cmdClear : Byte
  cmdRow1 : Byte
  cmdRow2 : Byte
  chSpace : Byte
  chNl : Byte
  chCr : Byte
  /-- `RS_CMD`. -/
  rsCmd : Level
  /-- `RW_WRITE`. -/
  rwWrite : Level
  /-- `E_ON`. -/
  eOn : Level
  deriving DecidableEq, Repr

/-- `RS_DATA`, "always the complement of `RS_CMD`" (R4). -/
def Config.rsData (c : Config) : Level := !c.rsCmd

/-- `E_OFF`, the complement of `E_ON` (R4). -/
def Config.eOff (c : Config) : Level := !c.eOn

/-- `Q_DB`, the data bus value of the quiescent state (R4, R64). -/
def Config.qDb : Byte := 0x00#8

/-- The defaults R4 suggests for the open parameters, with both configuration flags false. PRESUMED (the spec's own
defaults, taken from the HD44780 family and ASCII) and, for the flags, DESIGN CHOICE (log 2). -/
def Config.suggested : Config where
  mirror := false
  wdtEn := false
  cmdFn2l := 0x38#8
  cmdEntry := 0x06#8
  cmdOnBlink := 0x0F#8
  cmdBlinkOff := 0x0C#8
  cmdClear := 0x01#8
  cmdRow1 := 0x80#8
  cmdRow2 := 0xC0#8
  chSpace := 0x20#8
  chNl := 0x0A#8
  chCr := 0x0D#8
  rsCmd := false
  rwWrite := false
  eOn := true

/-- FREE VALUE: what a read of a row cell that holds no value delivers, by cell address (R12, R23, R128; log 3).
It has no body, so no claim can rest on it. -/
opaque Config.freeCell : Nat → Byte

end Sys2Proof
end

