-- ==== Sys2Proof/Syntax.lean ====
section
/-! DEFINITION. The operation set (spec/30_encoding.md R45), whole: one constructor per row of
spec/opcode_table.json, and the two interfaces an operation's words travel on. -/

namespace Sys2Proof

/-- The operations of R45. A host operation is issued on the host command port; a transport operation is a
request from the Line Buffer to the Bus Transport; `wrstr` is the pseudo-operation of R57. -/
inductive Instr where
  /-- `INIT`, R87. -/
  | init
  /-- `WRCH ch`, R81. -/
  | wrch (ch : Byte)
  /-- `CLRS`, R88. -/
  | clrs
  /-- `RSVD`, the reserved host code, R90. -/
  | rsvd
  /-- `WRSTR s`, R89: a finite list of bytes, no terminator. -/
  | wrstr (s : List Byte)
  /-- `T.INIT`, R67. -/
  | tInit
  /-- `T.CMD b`, R65. -/
  | tCmd (b : Byte)
  /-- `T.DATA b`, R66. -/
  | tData (b : Byte)
  /-- `T.CLEAR`, R68. -/
  | tClear
  deriving DecidableEq, Repr

/-- The two interfaces of R45: the host command port (Format H, R46) and the internal request interface from the
Line Buffer to the Bus Transport (Format T, R48). -/
inductive Iface where
  | host
  | transport
  deriving DecidableEq, Repr

/-- One 10-bit word presented on one interface. -/
structure Presented where
  iface : Iface
  word : PortWord
  deriving DecidableEq, Repr

end Sys2Proof
end

