-- ==== Sys2Proof/WellFormed.lean ====
section
/-! DEFINITION. Well-formed operations on an interface, host programs and configurations. Every operand of an
operation is a byte or a list of bytes, and every byte is legal (spec/30_encoding.md R50, R54), so the checks are
about where an operation may stand. -/

namespace Sys2Proof

/-- The interface whose words express the operation (R45, R57). -/
def Instr.iface : Instr → Iface
  | .init => .host
  | .wrch _ => .host
  | .clrs => .host
  | .rsvd => .host
  | .wrstr _ => .host
  | .tInit => .transport
  | .tCmd _ => .transport
  | .tData _ => .transport
  | .tClear => .transport

/-- An operation may be issued on an interface: "The transport operations are therefore *not* reachable from the
host command port" (R45). -/
def Instr.wfOn (f : Iface) (i : Instr) : Bool := i.iface = f

/-- A host program: transport operations "appear only in traces ... never in a host program" (R56). -/
def Program.wf (p : List Instr) : Bool := p.all (Instr.wfOn .host)

/-- The boot requirement of R117: `INIT` "must be called exactly once before any other operation". It is the host's
duty, and the core does not check it (R20, R119). -/
def Program.boots : List Instr → Bool
  | [] => false
  | i :: rest => i = .init && rest.all (fun j => j ≠ .init)

/-- The one constraint of R4 between open parameters: `CH_NL ≠ CH_CR` (the other, `RS_DATA = not RS_CMD`, holds by
the definition of `Config.rsData`; log 17). -/
def Config.wf (c : Config) : Bool := c.chNl ≠ c.chCr

/-- The operations the words of an operation stand for: itself, but for `WRSTR`, which "stands for the `n` host
words `WRCH c1`, ..., `WRCH cn` in that order" (R57). -/
def Instr.expansion : Instr → List Instr
  | .init => [.init]
  | .wrch ch => [.wrch ch]
  | .clrs => [.clrs]
  | .rsvd => [.rsvd]
  | .wrstr s => s.map .wrch
  | .tInit => [.tInit]
  | .tCmd b => [.tCmd b]
  | .tData b => [.tData b]
  | .tClear => [.tClear]

end Sys2Proof
end

