-- ==== Sys2Proof/Decode.lean ====
section
/-! DEFINITION. Decoding and encoding of Format H and Format T (spec/30_encoding.md R46 to R48, R50, R54, R55). -/

namespace Sys2Proof

/-- The mask of every row of both opcode maps (R47, R48): the two `op` bits. -/
def opMask : PortWord := 0x300#10

/-- The operand byte, bits 7:0, "bit for bit, with no extension, scaling or shifting" (R50). -/
def operandByte (w : PortWord) : Byte := w.extractLsb' 0 8

/-- The host opcode map (R47): "A word selects the row whose `match` equals `W and mask`". The last row is the
reserved code `0x300` (R54). -/
def decodeHost (w : PortWord) : Instr :=
  if w &&& opMask = 0x000#10 then .init
  else if w &&& opMask = 0x100#10 then .wrch (operandByte w)
  else if w &&& opMask = 0x200#10 then .clrs
  else .rsvd

/-- The transport opcode map (R48); all four codes are used. -/
def decodeTransport (w : PortWord) : Instr :=
  if w &&& opMask = 0x000#10 then .tInit
  else if w &&& opMask = 0x100#10 then .tCmd (operandByte w)
  else if w &&& opMask = 0x200#10 then .tData (operandByte w)
  else .tClear

/-- Decoding of a word presented on an interface: total, since there is no illegal encoding (R54). -/
def decode : Iface → PortWord → Instr
  | .host, w => decodeHost w
  | .transport, w => decodeTransport w

/-- Why a number is no word of an interface. -/
inductive DecodeError where
  /-- The number has a bit above bit 9: every word is 10 bits (R55; log 11). -/
  | widerThanTenBits
  deriving DecidableEq, Repr

/-- Decoding of any number: refused by name where it is no 10-bit word. -/
def decodeNumber (f : Iface) (n : Nat) : Except DecodeError Instr :=
  if n < 2 ^ 10 then .ok (decode f (BitVec.ofNat 10 n)) else .error .widerThanTenBits

/-- A two-bit code and an operand byte as one word `{op, arg}` (R46, R48). -/
def portWord (op : BitVec 2) (arg : Byte) : PortWord := op ++ arg

/-- The words of an operation (R47, R48, R57). The canonical word of an operation with an ignored operand has the
operand bits 0 (R47). -/
def encode : Instr → List Presented
  | .init => [⟨.host, portWord 0 0⟩]
  | .wrch ch => [⟨.host, portWord 1 ch⟩]
  | .clrs => [⟨.host, portWord 2 0⟩]
  | .rsvd => [⟨.host, portWord 3 0⟩]
  | .wrstr s => s.map fun c => ⟨.host, portWord 1 c⟩
  | .tInit => [⟨.transport, portWord 0 0⟩]
  | .tCmd b => [⟨.transport, portWord 1 b⟩]
  | .tData b => [⟨.transport, portWord 2 b⟩]
  | .tClear => [⟨.transport, portWord 3 0⟩]

/-- The words of a program, "a finite sequence of host operations ... executed in order" (R56), `WRSTR` by its
expansion (R57). -/
def Program.words (p : List Instr) : List Presented := p.flatMap encode

/-- The bytes of a quoted string: `\n` stands for `CH_NL`, `\r` for `CH_CR` (R56), any other character for its code
in the host's character set, here its code point (R5; log 15). -/
def quotedBytes (cfg : Config) : List Char → List Byte
  | [] => []
  | '\\' :: 'n' :: rest => cfg.chNl :: quotedBytes cfg rest
  | '\\' :: 'r' :: rest => cfg.chCr :: quotedBytes cfg rest
  | c :: rest => BitVec.ofNat 8 c.toNat :: quotedBytes cfg rest

/-- The operation the decoder reads from a word of spec/opcode_table.json, given as a number of `nbits` bits. The
only words that reach the core from outside are those of the host command port (R45), so it is read as a Format H
word: the bits of a Format T row are those of a Format H row, and the table's words do not name the interface
(log 6). -/
def decodeTableWord (nbits w : Nat) : Option Instr := (decodeNumber .host (w % 2 ^ nbits)).toOption

end Sys2Proof
end

