-- ==== Sys2Proof/Machine/State.lean ====
section
/-! DEFINITION. The state of the core as plain data (spec/10_state.md), the events of the two traces
(spec/00_scope.md R7), the sequencer's actions, the reasons to stop, and the state after hardware reset
(spec/10_state.md R23). -/

namespace Sys2Proof.Machine

/-- The byte-level events of R7. The byte is the value before the bit-order transform. -/
inductive ByteEvent where
  /-- `C(b)`: one byte delivered in command mode. -/
  | c (b : Byte)
  /-- `D(b)`: one byte delivered in data mode. -/
  | d (b : Byte)
  /-- `W(t)`: one settle wait of at least `t`. -/
  | w (t : Duration)
  /-- `K`: one pulse of the watchdog hook. -/
  | k
  /-- `Q`: the lines made outputs and driven to the quiescent state. -/
  | q
  deriving DecidableEq, Repr

/-- The pin-level events of R7. The byte of `setDB` is the value after the bit-order transform. -/
inductive PinEvent where
  | setOE (v : Level)
  | setRS (v : Level)
  | setRW (v : Level)
  | setDB (b : Byte)
  | setE (v : Level)
  /-- `Wait(t)`: no pin changes for at least `t`. -/
  | wait (t : Duration)
  /-- `Kick`: one pulse on the watchdog output `wdt_kick`. -/
  | kick
  deriving DecidableEq, Repr

/-- The pin registers (R14 to R16). -/
structure Pins where
  oe : Level
  rs : Level
  rw : Level
  e : Level
  db : Byte
  deriving DecidableEq, Repr

/-- Row memory (R31): the cells that hold a value, as (address, byte) pairs with rising addresses. -/
abbrev Memory := List Host.Cell

/-- One line of an operation's pseudocode as the sequencer holds it: a pin event, the record of a byte-level event, or
a write of Line Buffer state (R8, R18). -/
inductive Action where
  | pin (ev : PinEvent)
  | note (ev : ByteEvent)
  /-- `MemWrite(addr, 1, v)` (R6, R31). -/
  | store (addr : Nat) (v : Byte)
  /-- `cur[r] <- cur[r] + 1`. -/
  | bump (r : Row)
  /-- `cur[r] <- 0`; the cells of the row become stale (R13). -/
  | resetRow (r : Row)
  deriving DecidableEq, Repr

/-- Everything the spec gives the core (R10 to R18, R22, R23), and two fields of the model's own, `cfg` and
`script`. -/
structure State where
  /-- The parameters of the instance; the model's own field, written by nothing (R4, R17; log 1). -/
  cfg : Config
  /-- Row memory: the cells that hold a value (R10, R12, R31; log 3, 4). -/
  cells : Memory
  /-- `cur[0]` (R11). -/
  cur0 : Cursor
  /-- `cur[1]` (R11). -/
  cur1 : Cursor
  /-- `OE`, `RS`, `RW`, `E`, `DB` (R14 to R16). -/
  pins : Pins
  /-- `busy` (R18, R58). -/
  busy : Bool
  /-- The sequencer: what is left of the operation in progress; the empty list is idle (R18, R23). -/
  seq : List Action
  /-- The byte-level trace, oldest event first (R7, R22). -/
  trace : List ByteEvent
  /-- The pin-level trace, oldest event first (R7, R22, R73). -/
  pinTrace : List PinEvent
  /-- The words the environment will present, in order; the model's own field (R110; log 5, 6). -/
  script : List Presented
  deriving DecidableEq, Repr

/-- The reasons a step can fault: none. "The set of exception causes is empty" and no operation can fault, "for any
operand and in any state" (spec/60_exceptions.md R100), so nobody raises one. Safe. -/
inductive Fault where
  deriving DecidableEq, Repr

/-- The reasons a step can be refused. -/
inductive Refusal where
  /-- Raised by an arm of `exec` whose operation has no meaning yet, with its name in spec/opcode_table.json. No arm
  raises it now. Safe. -/
  | notModelled (mnemonic : String)
  deriving DecidableEq, Repr

/-- The pin registers after hardware reset (R23): lines not driven, command mode, write mode, enable deasserted,
`Q_DB` on the bus. -/
def Pins.atReset (cfg : Config) : Pins where
  oe := false
  rs := cfg.rsCmd
  rw := cfg.rwWrite
  e := cfg.eOff
  db := Config.qDb

/-- The state after hardware reset of an instance with parameters `cfg` (R23, R115). No cell holds a value; nothing
is presented by the environment. -/
def State.resetOf (cfg : Config) : State where
  cfg := cfg
  cells := []
  cur0 := 0
  cur1 := 0
  pins := Pins.atReset cfg
  busy := false
  seq := []
  trace := []
  pinTrace := []
  script := []

/-- The state after hardware reset of the instance with the suggested parameters (log 2). -/
def State.reset : State := State.resetOf Config.suggested

end Sys2Proof.Machine
end

