-- ==== Sys2Proof/Machine/Operands.lean ====
section
/-! DEFINITION. Every operand form the spec gives: cell addresses (spec/20_memory.md R31), the bit-order transform and
the bus byte (spec/40_bus_transport.md R60, R61), the level a tag selects (R62), the bus frame (spec/30_encoding.md
R49) and the character classes (R52). -/

namespace Sys2Proof.Machine

/-- The number of a row: 0 primary, 1 secondary (R6). -/
def rowIndex : Row → Nat
  | .primary => 0
  | .secondary => 1

/-- The linear address of cell `i` of row `r`: `16*r + i` (R31). -/
def cellAddr (r : Row) (i : Nat) : Nat := 16 * rowIndex r + i

/-- `mirror8(b) = {b[0], b[1], b[2], b[3], b[4], b[5], b[6], b[7]}` (R60; log 10). -/
def mirror8 (b : Byte) : Byte :=
  BitVec.ofBool (b.getLsbD 0) ++ BitVec.ofBool (b.getLsbD 1) ++ BitVec.ofBool (b.getLsbD 2) ++
  BitVec.ofBool (b.getLsbD 3) ++ BitVec.ofBool (b.getLsbD 4) ++ BitVec.ofBool (b.getLsbD 5) ++
  BitVec.ofBool (b.getLsbD 6) ++ BitVec.ofBool (b.getLsbD 7)

/-- `busbyte(b)`: the byte put on the data bus (R61). -/
def busByte (cfg : Config) (b : Byte) : Byte := if cfg.mirror then mirror8 b else b

/-- The level of the register-select line for a tag (R14, R62). -/
def tagLevel (cfg : Config) : Tag → Level
  | .cmd => cfg.rsCmd
  | .data => cfg.rsData

/-- Format P: the 10 bits `{RS, RW, DB}` (R49). -/
def frameWord (rs rw : Level) (db : Byte) : PortWord := BitVec.ofBool rs ++ BitVec.ofBool rw ++ db

/-- The frame of a byte `b` sent with a tag: `{level(tag), RW_WRITE, busbyte(b)}` (R49, R70). -/
def busFrame (cfg : Config) (t : Tag) (b : Byte) : PortWord := frameWord (tagLevel cfg t) cfg.rwWrite (busByte cfg b)

/-- The classes of the operand of `WRCH` (R52). -/
inductive CharClass where
  | carriageReturn
  | newline
  | visible
  deriving DecidableEq, Repr

/-- The class of a character, tested in the order of R52: carriage-return, newline, every other value. -/
def charClass (cfg : Config) (ch : Byte) : CharClass :=
  if ch = cfg.chCr then .carriageReturn else if ch = cfg.chNl then .newline else .visible

end Sys2Proof.Machine
end

