-- ==== Sys2Proof/Machine/Flags.lean ====
section
/-! DEFINITION. The core stores no flag (spec/10_state.md R19): every condition is computed from the cursors each
time. -/

namespace Sys2Proof.Machine

/-- `cur[r]` (R6, R11). -/
def State.cur (s : State) : Row → Cursor
  | .primary => s.cur0
  | .secondary => s.cur1

/-- `cur[r] == 0`: the first character of a fresh row (R84, R86). -/
def State.rowFresh (s : State) (r : Row) : Bool := s.cur r = 0#5

/-- `cur[r] ≥ 16`: the row is full (R11, R86; the test is the spec's `≥`, spec/90_conflicts.md C9). -/
def State.rowFull (s : State) (r : Row) : Bool := 16#5 ≤ s.cur r

/-- The working row: "primary if primary's cursor < 16, else secondary" (R80). -/
def State.workingRow (s : State) : Row := if s.rowFull .primary then .secondary else .primary

/-- `cmd_ready = not busy` (R58). -/
def State.cmdReady (s : State) : Bool := !s.busy

end Sys2Proof.Machine
end

