-- ==== Sys2Proof/Machine/Ops.lean ====
section
/-! DEFINITION. The shared operations over row memory, cursors and pin registers, the procedures every transport
operation is built from (spec/40_bus_transport.md R62 to R64), and hardware reset (spec/70_reset_and_hazards.md R115).
The core takes no exception and returns from none (spec/60_exceptions.md R100, R104, R105): hardware reset is the one
event that changes the course of an operation. -/

namespace Sys2Proof.Machine

/-- `MemRead(addr, 1)`: the value of a cell, none where the cell holds no value (R6, R12, R31). -/
def Memory.read : Memory → Nat → Option Byte
  | [], _ => none
  | (a, v) :: rest, k => if a = k then some v else Memory.read rest k

/-- `MemWrite(addr, 1, v)` (R6, R31), keeping the addresses rising. -/
def Memory.write : Memory → Nat → Byte → Memory
  | [], k, v => [(k, v)]
  | (a, w) :: rest, k, v =>
    if k < a then (k, v) :: (a, w) :: rest
    else if k = a then (k, v) :: rest
    else (a, w) :: Memory.write rest k v

/-- The address is that of a cell of row `r` (R31). -/
def inRow (r : Row) (a : Nat) : Bool := cellAddr r 0 ≤ a && a < cellAddr r 16

/-- All cells of a row become stale, which leaves them with no value (R12, R13; log 4). -/
def Memory.dropRow (m : Memory) (r : Row) : Memory := m.filter fun c => !inRow r c.1

/-- The canonical form from address `lo` on: addresses rising and below 32. -/
def Memory.wfFrom : Nat → Memory → Bool
  | _, [] => true
  | lo, (a, _) :: rest => decide (lo ≤ a) && decide (a < 32) && Memory.wfFrom (a + 1) rest

/-- The canonical form of row memory: addresses strictly rising, each one of the 32 of R31. An unlisted address holds
no value, so no entry can equal what an unlisted address reads as. -/
def Memory.wf (m : Memory) : Bool := Memory.wfFrom 0 m

/-- The byte a rule's read of a cell delivers: its value, and a free value where it holds none (R12, R128; log 3). -/
def State.cellByte (s : State) (a : Nat) : Byte := (s.cells.read a).getD (Config.freeCell a)

/-- `cur[r] <- c`. -/
def State.setCur (s : State) (r : Row) (c : Cursor) : State :=
  match r with
  | .primary => { s with cur0 := c }
  | .secondary => { s with cur1 := c }

/-- A pin event "changes its own register and no other" (R32); a wait and a kick change none (R63, R108; log 18). -/
def Pins.apply (p : Pins) : PinEvent → Pins
  | .setOE v => { p with oe := v }
  | .setRS v => { p with rs := v }
  | .setRW v => { p with rw := v }
  | .setDB b => { p with db := b }
  | .setE v => { p with e := v }
  | .wait _ => p
  | .kick => p

/-- One line of pseudocode takes effect (R6, R7, R8). -/
def Action.run : Action → State → State
  | .pin ev, s => { s with pins := s.pins.apply ev, pinTrace := s.pinTrace ++ [ev] }
  | .note ev, s => { s with trace := s.trace ++ [ev] }
  | .store a v, s => { s with cells := s.cells.write a v }
  | .bump r, s => s.setCur r (s.cur r + 1)
  | .resetRow r, s => { s.setCur r 0 with cells := s.cells.dropRow r }

/-- The lines of an operation, in order (R8, R40). -/
def perform : List Action → State → State
  | [], s => s
  | a :: as, s => perform as (a.run s)

/-- The byte-level event of a transfer: `C(b)` or `D(b)` (R62). -/
def transferEvent : Tag → Byte → ByteEvent
  | .cmd, b => .c b
  | .data, b => .d b

/-- `xfer(tag, b)`: the six pin events that deliver one byte, and its byte-level event (R62; log 12). -/
def xfer (cfg : Config) (t : Tag) (b : Byte) : List Action :=
  [.pin (.setRW cfg.rwWrite),
   .pin (.setRS (tagLevel cfg t)),
   .pin (.setDB (busByte cfg b)),
   .pin (.setE cfg.eOn),
   .pin (.wait .tEn),
   .pin (.setE cfg.eOff),
   .note (transferEvent t b)]

/-- The watchdog hook: one pulse when `WDT_EN`, nothing otherwise (R63, R108). -/
def kickHook (cfg : Config) : List Action := if cfg.wdtEn then [.pin .kick, .note .k] else []

/-- `settle(t)`: a settle wait between two calls of the watchdog hook (R63). -/
def settle (cfg : Config) (t : Duration) : List Action :=
  kickHook cfg ++ [.pin (.wait t), .note (.w t)] ++ kickHook cfg

/-- `quiesce()`: the lines made outputs and driven to the quiescent state; `Q_DB` goes on the bus as it is (R64). -/
def quiesce (cfg : Config) : List Action :=
  [.pin (.setOE true),
   .pin (.setE cfg.eOff),
   .pin (.setRW cfg.rwWrite),
   .pin (.setRS cfg.rsCmd),
   .pin (.setDB Config.qDb),
   .note .q]

/-- Hardware reset, in any state: the values of R23, the operation in progress abandoned and not resumed (R115). The
parameters are the instance's and the words the environment will present are its own, so both stay (log 19). -/
def hardReset (s : State) : State := { State.resetOf s.cfg with script := s.script }

/-- The operation in progress runs to its end: its lines in order, then idle (R18, R40, R133). -/
def finish (s : State) : State := { perform s.seq s with seq := [], busy := false }

/-- The environment presents a host word next, to a core that is idle (R58; log 5). A number that is no 10-bit word
cannot stand on the port's lines, and nothing is presented for it (log 11). -/
def presentHostWord (s : State) (n : Nat) : State :=
  { s with
    busy := false
    seq := []
    script := if n < 2 ^ 10 then ⟨.host, BitVec.ofNat 10 n⟩ :: s.script else s.script }

end Sys2Proof.Machine
end

