-- ==== Sys2Proof/Machine/Transport.lean ====
section
/-! DEFINITION. The Bus Transport operations (spec/40_bus_transport.md R65 to R68). None reads or writes a row or a
cursor (R71), none can fail (R69). -/

namespace Sys2Proof.Machine

/-- `T.CMD b` (R65). -/
def tCmdActions (cfg : Config) (b : Byte) : List Action := xfer cfg .cmd b

/-- `T.DATA b` (R66). -/
def tDataActions (cfg : Config) (b : Byte) : List Action := xfer cfg .data b

/-- `T.CLEAR` (R68): the clear command, then the settle wait. -/
def tClearActions (cfg : Config) : List Action :=
  xfer cfg .cmd cfg.cmdClear ++ settle cfg .tClear

/-- `T.INIT` (R67): the nine steps in their mandatory order (R118); step 8 is the first-write quirk (R124). -/
def tInitActions (cfg : Config) : List Action :=
  quiesce cfg ++
  settle cfg .tPoweron ++
  xfer cfg .cmd cfg.cmdFn2l ++
  xfer cfg .cmd cfg.cmdEntry ++
  xfer cfg .cmd cfg.cmdOnBlink ++
  xfer cfg .cmd cfg.cmdClear ++
  settle cfg .tClear ++
  xfer cfg .data cfg.chSpace ++
  xfer cfg .cmd cfg.cmdRow1

/-- The meaning of `T.CMD b` (R65). -/
def execTCmd (b : Byte) (s : State) : Host.Outcome State Fault Refusal := .next (perform (tCmdActions s.cfg b) s)

/-- The meaning of `T.DATA b` (R66). -/
def execTData (b : Byte) (s : State) : Host.Outcome State Fault Refusal := .next (perform (tDataActions s.cfg b) s)

/-- The meaning of `T.CLEAR` (R68). -/
def execTClear (s : State) : Host.Outcome State Fault Refusal := .next (perform (tClearActions s.cfg) s)

/-- The meaning of `T.INIT` (R67). -/
def execTInit (s : State) : Host.Outcome State Fault Refusal := .next (perform (tInitActions s.cfg) s)

end Sys2Proof.Machine
end

