-- ==== Sys2Proof/Machine/LineBuffer.lean ====
section
/-! DEFINITION. The Line Buffer and the host operations (spec/41_line_buffer.md R81 to R90). The lines of an operation
are fixed by the state it starts from: nothing else acts while it runs (spec/20_memory.md R40; log 7). In the rules'
pseudocode `C(b)` stands for `T.CMD b` and `D(b)` for `T.DATA b`. -/

namespace Sys2Proof.Machine

/-- `pad_working_row` (R83): spaces into the working row from its cursor to index 15, in memory only. No event is
emitted, and the row is fixed before the loop. -/
def padActions (s : State) : List Action :=
  (List.range' (s.cur s.workingRow).toNat (16 - (s.cur s.workingRow).toNat)).flatMap fun i =>
    [.store (cellAddr s.workingRow i) s.cfg.chSpace, .bump s.workingRow]

/-- `put_primary(ch)` (R84). -/
def putPrimaryActions (ch : Byte) (s : State) : List Action :=
  (if s.rowFresh .primary then tCmdActions s.cfg s.cfg.cmdRow1 else []) ++
  [.store (cellAddr .primary s.cur0.toNat) ch] ++
  tDataActions s.cfg ch ++
  [.bump .primary]

/-- `scroll_up()` (R85): row 1 copied into row 0 and sent again, 16 spaces sent to the second display row and stored
nowhere, `cur[1] <- 0`. -/
def scrollUpActions (s : State) : List Action :=
  tCmdActions s.cfg s.cfg.cmdBlinkOff ++
  tCmdActions s.cfg s.cfg.cmdRow1 ++
  (List.range 16).flatMap (fun i =>
    .store (cellAddr .primary i) (s.cellByte (cellAddr .secondary i)) ::
    tDataActions s.cfg (s.cellByte (cellAddr .secondary i))) ++
  tCmdActions s.cfg s.cfg.cmdRow2 ++
  (List.range 16).flatMap (fun _ => tDataActions s.cfg s.cfg.chSpace) ++
  [.resetRow .secondary] ++
  tCmdActions s.cfg s.cfg.cmdOnBlink ++
  tCmdActions s.cfg s.cfg.cmdRow2

/-- The index at which `put_secondary` stores its character: `cur[1]` after the scroll-up where there is one (which
leaves 0), else `cur[1]` (R86). -/
def secondarySlot (s : State) : Nat := if s.rowFull .secondary then 0 else s.cur1.toNat

/-- `put_secondary(ch)` (R86): both tests are made on the value `cur[1]` has on entry. -/
def putSecondaryActions (ch : Byte) (s : State) : List Action :=
  (if s.rowFresh .secondary then tCmdActions s.cfg s.cfg.cmdRow2 else []) ++
  (if s.rowFull .secondary then scrollUpActions s else []) ++
  [.store (cellAddr .secondary (secondarySlot s)) ch] ++
  tDataActions s.cfg ch ++
  [.bump .secondary]

/-- `WRCH ch`: dispatch on the character's class and on the working row (R81, R82). -/
def wrchActions (ch : Byte) (s : State) : List Action :=
  match charClass s.cfg ch with
  | .carriageReturn => []
  | .newline => padActions s
  | .visible => if s.rowFull .primary then putSecondaryActions ch s else putPrimaryActions ch s

/-- `INIT` (R87): the transport's nine steps, then both cursors to 0. -/
def initActions (s : State) : List Action :=
  tInitActions s.cfg ++ [.resetRow .primary, .resetRow .secondary]

/-- `CLRS` (R88): the transport's clear, then both cursors to 0. -/
def clrsActions (s : State) : List Action :=
  tClearActions s.cfg ++ [.resetRow .primary, .resetRow .secondary]

/-- `RSVD` (R90): no state is written and no event is emitted. -/
def rsvdActions (_ : State) : List Action := []

/-- The state `WRCH ch` leads to. -/
def writeChar (s : State) (ch : Byte) : State := perform (wrchActions ch s) s

/-- The meaning of `INIT` (R87). -/
def execInit (s : State) : Host.Outcome State Fault Refusal := .next (perform (initActions s) s)

/-- The meaning of `WRCH ch` (R81). -/
def execWrch (ch : Byte) (s : State) : Host.Outcome State Fault Refusal := .next (writeChar s ch)

/-- The meaning of `CLRS` (R88). -/
def execClrs (s : State) : Host.Outcome State Fault Refusal := .next (perform (clrsActions s) s)

/-- The meaning of `RSVD` (R90). -/
def execRsvd (s : State) : Host.Outcome State Fault Refusal := .next (perform (rsvdActions s) s)

/-- The meaning of `WRSTR` (R89): `WRCH` of each byte in order, "nothing is added before, between or after"
(log 14). -/
def execWrstr (cs : List Byte) (s : State) : Host.Outcome State Fault Refusal := .next (cs.foldl writeChar s)

end Sys2Proof.Machine
end

