-- ==== Sys2Proof/Machine/Dispatch.lean ====
section
/-! DEFINITION. The meaning of every operation: one arm per constructor of Instr. -/

namespace Sys2Proof.Machine

def exec (i : Instr) (s : State) : Host.Outcome State Fault Refusal :=
  match i with
  | .init => Sys2Proof.Machine.execInit s
  | .wrch ch => Sys2Proof.Machine.execWrch ch s
  | .clrs => Sys2Proof.Machine.execClrs s
  | .rsvd => Sys2Proof.Machine.execRsvd s
  | .wrstr cs => Sys2Proof.Machine.execWrstr cs s
  | .tInit => Sys2Proof.Machine.execTInit s
  | .tCmd b => Sys2Proof.Machine.execTCmd b s
  | .tData b => Sys2Proof.Machine.execTData b s
  | .tClear => Sys2Proof.Machine.execTClear s

end Sys2Proof.Machine
end

