-- ==== Sys2Proof/Machine/Step.lean ====
section
/-! DEFINITION. One step at the level of whole operations (spec/60_exceptions.md R110: "take the next host word, apply
its rule, append its events"; spec/20_memory.md R40). -/

namespace Sys2Proof.Machine

/-- A busy core finishes the operation in progress and takes no word (R18, R58). An idle core takes the next word the
environment presents, decodes it as the interface it stands on says, and runs it to completion. With no word presented
it is idle and everything holds (R113). -/
def step (s : State) : Host.Outcome State Fault Refusal :=
  if s.busy then .next (finish s)
  else
    match s.script with
    | [] => .next s
    | p :: rest => exec (decode p.iface p.word) { s with script := rest }

/-- A sequence of operations, each to completion before the next (R40, R133), stopping at the first that does not
answer a next state. -/
def execAll : List Instr → State → Host.Outcome State Fault Refusal
  | [], s => .next s
  | i :: rest, s =>
    match exec i s with
    | .next t => execAll rest t
    | .fault r => .fault r
    | .refused r => .refused r

/-- `s` with the words of a program presented, one after the other (R56, R110; log 5). -/
def State.withProgram (s : State) (p : List Instr) : State := { s with script := Program.words p }

/-- `s` idle, with the table word `w` presented next on the host command port (log 5, 6). -/
def State.withFetchWord (s : State) (nbits w : Nat) : State := presentHostWord s (w % 2 ^ nbits)

end Sys2Proof.Machine
end

