-- ==== Sys2Proof/Machine/Observe.lean ====
section
/-! DEFINITION. What can be observed of the core: the pin outputs (spec/10_state.md R14 to R18), the expansion of the
byte-level trace into the pin-level trace (spec/40_bus_transport.md R73), the frames the controller is given (R70), and
the least duration of a trace (spec/70_reset_and_hazards.md R130 to R132). No operation reads any of it (R22). -/

namespace Sys2Proof.Machine

/-- What the pins carry: the eleven lines while `OE` = 1 and nothing while `OE` = 0 (R16), and the outputs of the
command port (R58). -/
structure Outputs where
  /-- `lcd_rs`, none where the line is not driven. -/
  lcdRs : Option Level
  /-- `lcd_rw`. -/
  lcdRw : Option Level
  /-- `lcd_e`. -/
  lcdE : Option Level
  /-- `lcd_db[7:0]`. -/
  lcdDb : Option Byte
  /-- `lcd_oe`. -/
  lcdOe : Level
  busy : Level
  cmdReady : Level
  deriving DecidableEq, Repr

/-- The outputs of the core (R14 to R16, R18, R58; log 18). -/
def State.outputs (s : State) : Outputs where
  lcdRs := if s.pins.oe then some s.pins.rs else none
  lcdRw := if s.pins.oe then some s.pins.rw else none
  lcdE := if s.pins.oe then some s.pins.e else none
  lcdDb := if s.pins.oe then some s.pins.db else none
  lcdOe := s.pins.oe
  busy := s.busy
  cmdReady := s.cmdReady

/-- The pin events of one byte-level event (the table of R73). -/
def expand (cfg : Config) : ByteEvent → List PinEvent
  | .c b => [.setRW cfg.rwWrite, .setRS cfg.rsCmd, .setDB (busByte cfg b), .setE cfg.eOn, .wait .tEn, .setE cfg.eOff]
  | .d b => [.setRW cfg.rwWrite, .setRS cfg.rsData, .setDB (busByte cfg b), .setE cfg.eOn, .wait .tEn, .setE cfg.eOff]
  | .w t => [.wait t]
  | .k => [.kick]
  | .q => [.setOE true, .setE cfg.eOff, .setRW cfg.rwWrite, .setRS cfg.rsCmd, .setDB Config.qDb]

/-- The frames a sequence of pin events puts before the controller, from pins `p`: what `RS`, `RW`, `DB` hold each time
`E` is asserted on driven lines (R49, R70, R119). -/
def framesFrom (cfg : Config) : Pins → List PinEvent → List PortWord
  | _, [] => []
  | p, ev :: rest =>
    (if p.oe && decide (ev = .setE cfg.eOn) then [frameWord p.rs p.rw p.db] else []) ++ framesFrom cfg (p.apply ev) rest

/-- The frame of a byte-level event that carries a byte (R49). -/
def eventFrame (cfg : Config) : ByteEvent → Option PortWord
  | .c b => some (busFrame cfg .cmd b)
  | .d b => some (busFrame cfg .data b)
  | .w _ => none
  | .k => none
  | .q => none

/-- No `SetRS`, `SetRW`, `SetDB` or `SetOE` stands between an assertion of `E` and the event that deasserts it (R70).
The first argument says whether `E` is asserted before the list. -/
def pulsesStable (cfg : Config) : Level → List PinEvent → Bool
  | _, [] => true
  | _, .setE v :: rest => pulsesStable cfg (decide (v = cfg.eOn)) rest
  | on, .wait _ :: rest => pulsesStable cfg on rest
  | on, .kick :: rest => pulsesStable cfg on rest
  | on, .setOE _ :: rest => !on && pulsesStable cfg on rest
  | on, .setRS _ :: rest => !on && pulsesStable cfg on rest
  | on, .setRW _ :: rest => !on && pulsesStable cfg on rest
  | on, .setDB _ :: rest => !on && pulsesStable cfg on rest

/-- The least time of a pin event: that of a wait, and none otherwise (R130, R131). -/
def PinEvent.micros : PinEvent → Nat
  | .wait t => t.minMicros
  | .setOE _ => 0
  | .setRS _ => 0
  | .setRW _ => 0
  | .setDB _ => 0
  | .setE _ => 0
  | .kick => 0

/-- The sum of the least times of a pin-level trace, in microseconds (R131). -/
def eventsMicros (evs : List PinEvent) : Nat := (evs.map PinEvent.micros).sum

/-- `ceil(t * F_CLK)`: the cycles of a clock of `fClkHz` that a wait lasts at least (R132; log 13). -/
def waitCycles (fClkHz : Nat) (t : Duration) : Nat := (t.minMicros * fClkHz + 999999) / 1000000

/-- A pin event with the bit-order transform applied to the byte it puts on the data bus, where it puts one (R51). -/
def PinEvent.mirrored : PinEvent → PinEvent
  | .setDB b => .setDB (mirror8 b)
  | .setOE v => .setOE v
  | .setRS v => .setRS v
  | .setRW v => .setRW v
  | .setE v => .setE v
  | .wait t => .wait t
  | .kick => .kick

/-- How many byte-level events of each kind a list holds, as the table of R94 counts them. -/
structure EventCounts where
  /-- `C` events. -/
  c : Nat
  /-- `D` events. -/
  d : Nat
  /-- `W` events. -/
  w : Nat
  /-- `K` events. -/
  k : Nat
  /-- `Q` events. -/
  q : Nat
  deriving DecidableEq, Repr

/-- The counts of a list of byte-level events (R94). -/
def countEvents : List ByteEvent → EventCounts
  | [] => ⟨0, 0, 0, 0, 0⟩
  | .c _ :: rest => { countEvents rest with c := (countEvents rest).c + 1 }
  | .d _ :: rest => { countEvents rest with d := (countEvents rest).d + 1 }
  | .w _ :: rest => { countEvents rest with w := (countEvents rest).w + 1 }
  | .k :: rest => { countEvents rest with k := (countEvents rest).k + 1 }
  | .q :: rest => { countEvents rest with q := (countEvents rest).q + 1 }

/-- A cell `row[r][i]` is valid when `i < cur[r]` (R12). -/
def State.cellValid (s : State) (r : Row) (i : Nat) : Bool := i < (s.cur r).toNat

end Sys2Proof.Machine
end

