-- ==== Sys2Proof/Machine/Sequencer.lean ====
section
/-! DEFINITION. The host command port and the sequencer, event by event (spec/30_encoding.md R58, spec/10_state.md R18,
spec/70_reset_and_hazards.md R115). `tick` is the core at the level of its port: it samples the inputs and, when busy,
carries the operation in progress one pin event further. A tick is not a clock period: a pin event or a wait takes one
cycle or many (R131, R132; log 8). -/

namespace Sys2Proof.Machine

/-- The lines of an operation that starts from `s` (R18: what the sequencer goes through). `WRSTR` has no word of its
own and is never accepted on the port (R57); its lines are those of its characters, one after the other. -/
def opActions : Instr → State → List Action
  | .init, s => initActions s
  | .wrch ch, s => wrchActions ch s
  | .clrs, s => clrsActions s
  | .rsvd, s => rsvdActions s
  | .wrstr cs, s => wrstrLines cs s
  | .tInit, s => tInitActions s.cfg
  | .tCmd b, s => tCmdActions s.cfg b
  | .tData b, s => tDataActions s.cfg b
  | .tClear, s => tClearActions s.cfg
where
  /-- The lines of `WRCH` of each character, each from the state the one before it leaves (R89). -/
  wrstrLines : List Byte → State → List Action
    | [], _ => []
    | c :: rest, t => wrchActions c t ++ wrstrLines rest (writeChar t c)

/-- The inputs of the core at one tick (R58, R115). -/
structure PortIn where
  /-- `rst_n`, active low. -/
  rstN : Level
  /-- `cmd_valid`. -/
  cmdValid : Level
  /-- `cmd_op[1:0]`. -/
  cmdOp : BitVec 2
  /-- `cmd_arg[7:0]`. -/
  cmdArg : Byte
  deriving DecidableEq, Repr

/-- The word `{cmd_op, cmd_arg}` on the inputs (R46, R58). -/
def PortIn.hostWord (p : PortIn) : PortWord := portWord p.cmdOp p.cmdArg

/-- A line that is a pin event; the others take effect with the event before them. -/
def Action.isPin : Action → Bool
  | .pin _ => true
  | .note _ => false
  | .store _ _ => false
  | .bump _ => false
  | .resetRow _ => false

/-- The lines up to the next pin event take effect; what is left begins with a pin event or is empty. -/
def runWrites : List Action → State → List Action × State
  | [], s => ([], s)
  | a :: as, s => if a.isPin then (a :: as, s) else runWrites as (a.run s)

/-- Acceptance: the operation is fixed, and `busy` rises (R18, R58). -/
def accept (i : Instr) (s : State) : State := { s with busy := true, seq := opActions i s }

/-- The operation in progress goes one pin event further. `busy` falls with the last event and the last write; an
operation with no event ends here at once (R18, R58, R133). -/
def advance (s : State) : State :=
  match runWrites s.seq s with
  | ([], t) => { t with seq := [], busy := false }
  | (a :: rest, t) =>
    { (runWrites rest (a.run t)).2 with
      seq := (runWrites rest (a.run t)).1
      busy := !(runWrites rest (a.run t)).1.isEmpty }

/-- One tick of the core: reset wins (R103, R115); a busy core takes no word (R58, R125); an idle core accepts a valid
word; otherwise nothing changes (R113). -/
def tick (p : PortIn) (s : State) : State :=
  if p.rstN = false then hardReset s
  else if s.busy then advance s
  else if p.cmdValid then accept (decode .host p.hostWord) s
  else s

/-- A sequence of ticks, one for each sample of the inputs. -/
def ticks (ps : List PortIn) (s : State) : State := ps.foldl (fun t p => tick p t) s

/-- The ticks an operation stays busy after its acceptance: one for each pin event, and one where there is none. -/
def busyTicks (as : List Action) : Nat := max 1 (as.countP Action.isPin)

end Sys2Proof.Machine
end

