-- ==== Sys2Proof/Safety.lean ====
section
/-! DEFINITION. What counts as a safe state, in the terms the statements use: the invariants of spec/10_state.md R24,
spec/41_line_buffer.md R91, R92 and spec/40_bus_transport.md R70, R73. -/

namespace Sys2Proof.Machine

/-- R24, R91 (i), (ii): both cursors are in 0..16, and the secondary row is used only when the primary is full. -/
structure State.CursorsOk (s : State) : Prop where
  cur0_le : s.cur0.toNat ≤ 16
  cur1_le : s.cur1.toNat ≤ 16
  secondary_after_primary : 0 < s.cur1.toNat → s.cur0.toNat = 16

/-- R12: row memory is in canonical form, and the cells that hold a value are exactly the valid ones. -/
structure State.CellsOk (s : State) : Prop where
  canonical : s.cells.wf = true
  valued_iff_valid : ∀ r i, i < 16 → ((s.cells.read (cellAddr r i)).isSome = true ↔ i < (s.cur r).toNat)

/-- R14, R70: between operations the write line is in write mode and the enable line is deasserted. -/
structure State.PinsAtRest (s : State) : Prop where
  write_mode : s.pins.rw = s.cfg.rwWrite
  enable_off : s.pins.e = s.cfg.eOff

/-- R73, R22: the pin-level trace is the expansion of the byte-level trace, and the pin registers hold what the
pin-level trace last wrote to them, from their values at reset. -/
structure State.TracesOk (s : State) : Prop where
  expansion : s.pinTrace = s.trace.flatMap (expand s.cfg)
  replay : s.pins = s.pinTrace.foldl Pins.apply (Pins.atReset s.cfg)

/-- Between operations the core is idle (R18). -/
structure State.Idle (s : State) : Prop where
  not_busy : s.busy = false
  no_line_left : s.seq = []

/-- The invariant of the states between two operations. -/
structure State.Inv (s : State) : Prop where
  cursors : s.CursorsOk
  cells : s.CellsOk
  rest : s.PinsAtRest
  traces : s.TracesOk
  idle : s.Idle

/-- Everything but row memory is the same in two states, and every valid cell holds the same value: they can differ in
stale cells only (R12, R128). -/
structure State.AgreeOnValid (s t : State) : Prop where
  rest : s = { t with cells := s.cells }
  valid : ∀ r i, i < 16 → i < (s.cur r).toNat → s.cells.read (cellAddr r i) = t.cells.read (cellAddr r i)

end Sys2Proof.Machine
end

