-- ==== Sys2Proof/Certificates/Slice0/Obligations.lean ====
section
/-! DEFINITION. The statements about the core, each from the numbered rules of spec/. Every one holds for every value
of the parameters (spec/00_scope.md R4). -/

open Sys2Proof Sys2Proof.Machine

/-! ## Encoding -/

/-- The words of family D of spec/95_test_vectors.md decode as it lists them. -/
def Obligations.ListedWordsDecode : Prop :=
  decode .host 0x000#10 = .init ∧ decode .host 0x0FF#10 = .init ∧ decode .host 0x100#10 = .wrch 0x00#8 ∧
  decode .host 0x10A#10 = .wrch 0x0A#8 ∧ decode .host 0x10D#10 = .wrch 0x0D#8 ∧
  decode .host 0x141#10 = .wrch 0x41#8 ∧ decode .host 0x1FF#10 = .wrch 0xFF#8 ∧ decode .host 0x200#10 = .clrs ∧
  decode .host 0x2C3#10 = .clrs ∧ decode .host 0x300#10 = .rsvd ∧ decode .host 0x3FF#10 = .rsvd ∧
  decode .transport 0x000#10 = .tInit ∧ decode .transport 0x138#10 = .tCmd 0x38#8 ∧
  decode .transport 0x241#10 = .tData 0x41#8 ∧ decode .transport 0x300#10 = .tClear ∧
  decode .transport 0x3FF#10 = .tClear

/-- R47, R48: on each interface a word selects the row whose match equals the word under the mask `0x300`, its operand
is bits 7:0, every word selects a row, and the canonical host words are those the rule gives. The assignment of codes
is the spec's own choice (D3, D4). -/
def Obligations.OpBitsSelectOperation : Prop :=
  (∀ w : PortWord,
    (w &&& 0x300#10 = 0x000#10 → decode .host w = .init ∧ decode .transport w = .tInit) ∧
    (w &&& 0x300#10 = 0x100#10 →
      decode .host w = .wrch (w.extractLsb' 0 8) ∧ decode .transport w = .tCmd (w.extractLsb' 0 8)) ∧
    (w &&& 0x300#10 = 0x200#10 → decode .host w = .clrs ∧ decode .transport w = .tData (w.extractLsb' 0 8)) ∧
    (w &&& 0x300#10 = 0x300#10 → decode .host w = .rsvd ∧ decode .transport w = .tClear) ∧
    (w &&& 0x300#10 = 0x000#10 ∨ w &&& 0x300#10 = 0x100#10 ∨ w &&& 0x300#10 = 0x200#10 ∨
      w &&& 0x300#10 = 0x300#10)) ∧
  encode .init = [⟨.host, 0x000#10⟩] ∧ encode .clrs = [⟨.host, 0x200#10⟩] ∧ encode .rsvd = [⟨.host, 0x300#10⟩] ∧
  (∀ ch : Byte, encode (.wrch ch) = [⟨.host, 0x100#10 + ch.setWidth 10⟩])

/-- R45: no word on the host command port is a transport operation, and no request on the internal interface is a host
operation; each interface is well-formed for what it carries. -/
def Obligations.EachInterfaceCarriesItsOwnOperations : Prop :=
  ∀ (f : Iface) (w : PortWord), (decode f w).wfOn f = true

/-- Decoding the words of an operation gives the operation back, with every operand at every value; for `WRSTR`, which
has no word of its own, it gives one `WRCH` per byte (R57). The words stand on the operation's own interface. -/
def Obligations.DecodeInvertsEncode : Prop :=
  ∀ i : Instr, (encode i).map (fun p => decode p.iface p.word) = i.expansion ∧ ∀ p ∈ encode i, p.iface = i.iface

/-- R52: the three classes of the operand of `WRCH`; 254 of the 256 values are visible. -/
def Obligations.CharacterClassesSplitTheBytes : Prop :=
  ∀ cfg : Config, cfg.wf = true →
    (∀ ch, charClass cfg ch = .carriageReturn ↔ ch = cfg.chCr) ∧
    (∀ ch, charClass cfg ch = .newline ↔ ch = cfg.chNl) ∧
    (∀ ch, charClass cfg ch = .visible ↔ ch ≠ cfg.chCr ∧ ch ≠ cfg.chNl) ∧
    (List.range 256).countP (fun n => decide (charClass cfg (BitVec.ofNat 8 n) = .visible)) = 254

/-! ## The step -/

/-- R110: an idle core takes the next presented word, and the step is that operation on the state without the word.
That the words stand in `script`, and that a Format T word may stand there and is run, is the model's choice
(log 5, 6). -/
def Obligations.StepRunsThePresentedWord : Prop :=
  ∀ (s : State) (p : Presented) (rest : List Presented), s.busy = false → s.script = p :: rest →
    step s = exec (decode p.iface p.word) { s with script := rest }

/-- A word presented by `withFetchWord` is the one the next step runs, and `decodeTableWord` names it (the model's own
interface to the host, log 5, 6). -/
def Obligations.StepRunsTheFetchWord : Prop :=
  ∀ (s : State) (w : Nat), w < 2 ^ 10 →
    decodeTableWord 16 w = some (decode .host (BitVec.ofNat 10 w)) ∧
    step (s.withFetchWord 16 w) = exec (decode .host (BitVec.ofNat 10 w)) { s with busy := false, seq := [] }

/-- R113: with no word presented an idle core holds everything. -/
def Obligations.IdleCoreHoldsEverything : Prop :=
  ∀ s : State, s.busy = false → s.script = [] → step s = .next s

/-- R58, R125: a busy core takes no word. Its step runs every line that is left of the operation in progress, in order,
and the core is then idle: from any tick of an accepted operation it answers what `exec` answers for the operation.
That one step runs the operation in progress to its end is the model's choice (log 8). -/
def Obligations.BusyCoreTakesNoWord : Prop :=
  (∀ s : State, s.busy = true → ∃ t, step s = .next t ∧
    t = { s.seq.foldl (fun u a => a.run u) s with seq := [], busy := false } ∧
    t.script = s.script ∧ t.cfg = s.cfg ∧
    t.pins = (s.seq.filterMap (fun a => match a with | .pin ev => some ev | _ => none)).foldl Pins.apply s.pins ∧
    t.trace = s.trace ++ s.seq.filterMap (fun a => match a with | .note ev => some ev | _ => none) ∧
    t.pinTrace = s.pinTrace ++ s.seq.filterMap (fun a => match a with | .pin ev => some ev | _ => none)) ∧
  (∀ (i : Instr) (s : State) (ps : List PortIn), s.busy = false → s.seq = [] → (∀ q ∈ ps, q.rstN = true) →
    ps.length < busyTicks (opActions i s) → step (ticks ps (accept i s)) = exec i s)

/-- R100: there is no cause of a fault, and every operation completes in every state, and so does every step. -/
def Obligations.EveryOperationCompletes : Prop :=
  IsEmpty Fault ∧
  (∀ (i : Instr) (s : State), ∃ t, exec i s = .next t) ∧ (∀ s : State, ∃ t, step s = .next t)

/-- R40, R56, R57: presenting the words of a program and taking one step for each word is running its operations one
after the other, each to completion. That words are presented through `script` (log 5), that a program may hold
transport operations, which R56 keeps out of host programs (log 6), and that `WRSTR` is one `exec` (log 14) are the
model's choices. -/
def Obligations.ProgramRunsInOrder : Prop :=
  ∀ (p : List Instr) (s : State), s.busy = false →
    Host.Core.run Sys2Proof.core (Program.words p).length (s.withProgram p) = execAll p { s with script := [] }

/-! ## The Bus Transport -/

/-- R60: `mirror8` reverses the bits, is a bijection and its own inverse, and has the 16 fixed points of the rule.
Reading "mirroring" as full reversal is the spec's own choice (D8; log 10). -/
def Obligations.MirrorReversesTheBits : Prop :=
  (∀ (b : Byte) (i : Nat), i < 8 → (mirror8 b).getLsbD i = b.getLsbD (7 - i)) ∧ (∀ b, mirror8 (mirror8 b) = b) ∧
  Function.Bijective mirror8 ∧ (∀ b, mirror8 b = b ↔ ∀ i < 8, b.getLsbD i = b.getLsbD (7 - i)) ∧
  (List.range 256).countP (fun n => decide (mirror8 (BitVec.ofNat 8 n) = BitVec.ofNat 8 n)) = 16

/-- R61: the byte on the data bus is the transformed one exactly when `MIRROR` is set, for commands and data alike: it is
the byte `T.CMD b` and `T.DATA b` put on the bus, in every state. -/
def Obligations.BusByteFollowsTheMirrorFlag : Prop :=
  (∀ (cfg : Config) (b : Byte),
    (cfg.mirror = true → busByte cfg b = mirror8 b) ∧ (cfg.mirror = false → busByte cfg b = b)) ∧
  (∀ (i : Instr) (b : Byte) (s : State), i = .tCmd b ∨ i = .tData b →
    ∃ t pevs, exec i s = .next t ∧ t.pinTrace = s.pinTrace ++ pevs ∧
      (∀ x, .setDB x ∈ pevs ↔ x = if s.cfg.mirror then mirror8 b else b) ∧
      t.pins.db = if s.cfg.mirror then mirror8 b else b)

/-- R62, R65: `T.CMD b` is one transfer in command mode: six pin events in order (the order is D9), one `C(b)`, and nothing
else. -/
def Obligations.SendCommandIsOneTransfer : Prop :=
  ∀ (b : Byte) (s : State), ∃ t, exec (.tCmd b) s = .next t ∧
    t = { s with
      pins := { oe := s.pins.oe, rs := s.cfg.rsCmd, rw := s.cfg.rwWrite, e := s.cfg.eOff, db := busByte s.cfg b }
      trace := s.trace ++ [.c b]
      pinTrace := s.pinTrace ++ [.setRW s.cfg.rwWrite, .setRS s.cfg.rsCmd, .setDB (busByte s.cfg b),
        .setE s.cfg.eOn, .wait .tEn, .setE s.cfg.eOff] }

/-- R62, R66: `T.DATA b` is one transfer in data mode, for every byte, the newline and carriage-return codes
included. -/
def Obligations.SendDataIsOneTransfer : Prop :=
  ∀ (b : Byte) (s : State), ∃ t, exec (.tData b) s = .next t ∧
    t = { s with
      pins := { oe := s.pins.oe, rs := s.cfg.rsData, rw := s.cfg.rwWrite, e := s.cfg.eOff, db := busByte s.cfg b }
      trace := s.trace ++ [.d b]
      pinTrace := s.pinTrace ++ [.setRW s.cfg.rwWrite, .setRS s.cfg.rsData, .setDB (busByte s.cfg b),
        .setE s.cfg.eOn, .wait .tEn, .setE s.cfg.eOff] }

/-- R67: `T.INIT` is the nine steps in order, 43 pin events or 47 with the watchdog hook and at least 600.48 ms,
with no row and no cursor written, whatever state it starts from. The quiescent state (D10), the blank byte of step 8
(D12) and the places of the watchdog hook (D16) are the spec's own choices. -/
def Obligations.TransportInitRunsNineSteps : Prop :=
  ∀ s : State, ∃ (evs : List ByteEvent) (t : State), exec .tInit s = .next t ∧
    evs = (if s.cfg.wdtEn then
        [.q, .k, .w .tPoweron, .k, .c s.cfg.cmdFn2l, .c s.cfg.cmdEntry, .c s.cfg.cmdOnBlink, .c s.cfg.cmdClear, .k,
          .w .tClear, .k, .d s.cfg.chSpace, .c s.cfg.cmdRow1]
      else
        [.q, .w .tPoweron, .c s.cfg.cmdFn2l, .c s.cfg.cmdEntry, .c s.cfg.cmdOnBlink, .c s.cfg.cmdClear, .w .tClear,
          .d s.cfg.chSpace, .c s.cfg.cmdRow1]) ∧
    t = { s with
      pins :=
        { oe := true, rs := s.cfg.rsCmd, rw := s.cfg.rwWrite, e := s.cfg.eOff, db := busByte s.cfg s.cfg.cmdRow1 }
      trace := s.trace ++ evs
      pinTrace := s.pinTrace ++ evs.flatMap (expand s.cfg) } ∧
    (evs.flatMap (expand s.cfg)).length = (if s.cfg.wdtEn then 47 else 43) ∧
    eventsMicros (evs.flatMap (expand s.cfg)) = 600480

/-- R68: `T.CLEAR` is the clear command, then the settle wait, 7 pin events or 9 with the watchdog hook and at
least 500.08 ms, with no row and no cursor written. -/
def Obligations.TransportClearSendsAndWaits : Prop :=
  ∀ s : State, ∃ (evs : List ByteEvent) (t : State), exec .tClear s = .next t ∧
    evs = (if s.cfg.wdtEn then [.c s.cfg.cmdClear, .k, .w .tClear, .k] else [.c s.cfg.cmdClear, .w .tClear]) ∧
    t = { s with
      pins :=
        { oe := s.pins.oe, rs := s.cfg.rsCmd, rw := s.cfg.rwWrite, e := s.cfg.eOff, db := busByte s.cfg s.cfg.cmdClear }
      trace := s.trace ++ evs
      pinTrace := s.pinTrace ++ evs.flatMap (expand s.cfg) } ∧
    (evs.flatMap (expand s.cfg)).length = (if s.cfg.wdtEn then 9 else 7) ∧
    eventsMicros (evs.flatMap (expand s.cfg)) = 500080

/-- R71: a transport operation completes with every cell, both cursors and everything but the pins and the two traces
as they were, and what it does does not depend on any cell or cursor. -/
def Obligations.TransportTouchesNoRow : Prop :=
  ∀ (i : Instr) (s : State) (cells : Memory) (c0 c1 : Cursor), i.iface = .transport →
    ∃ t, exec i s = .next t ∧ t = { s with pins := t.pins, trace := t.trace, pinTrace := t.pinTrace } ∧
      exec i { s with cells := cells, cur0 := c0, cur1 := c1 } = .next { t with cells := cells, cur0 := c0, cur1 := c1 }

/-- R73: the table that expands a byte-level event, and that the pin-level trace of every operation is the expansion of
its byte-level trace, with nothing else added and nothing before it removed (R22). -/
def Obligations.PinTraceExpandsByteTrace : Prop :=
  (∀ (cfg : Config) (b : Byte) (d : Duration),
    expand cfg (.c b) = [.setRW cfg.rwWrite, .setRS cfg.rsCmd, .setDB (busByte cfg b), .setE cfg.eOn, .wait .tEn,
      .setE cfg.eOff] ∧
    expand cfg (.d b) = [.setRW cfg.rwWrite, .setRS cfg.rsData, .setDB (busByte cfg b), .setE cfg.eOn, .wait .tEn,
      .setE cfg.eOff] ∧
    expand cfg (.w d) = [.wait d] ∧ expand cfg .k = [.kick] ∧
    expand cfg .q = [.setOE true, .setE cfg.eOff, .setRW cfg.rwWrite, .setRS cfg.rsCmd, .setDB Config.qDb]) ∧
  (∀ (i : Instr) (s : State), ∃ t evs, exec i s = .next t ∧ t.trace = s.trace ++ evs ∧
    t.pinTrace = s.pinTrace ++ evs.flatMap (expand s.cfg))

/-- R49, R70, R16, R119: on driven lines the frames the controller is given are exactly those of the `C` and `D` events, one
each and in order; while the lines are not driven it is given none. -/
def Obligations.FramesAreTheCommandsAndDatas : Prop :=
  ∀ (i : Instr) (s t : State), exec i s = .next t →
    ∃ evs pevs, t.trace = s.trace ++ evs ∧ t.pinTrace = s.pinTrace ++ pevs ∧
      framesFrom s.cfg s.pins pevs =
        if s.pins.oe = true ∨ i = .init ∨ i = .tInit then evs.filterMap (eventFrame s.cfg) else []

/-- R70: in every operation, from the assertion of the enable line to its deassertion no other pin register is
written, and an operation that emits ends with the enable line deasserted. -/
def Obligations.FramesAreStable : Prop :=
  ∀ (i : Instr) (s t : State), exec i s = .next t →
    ∃ pevs, t.pinTrace = s.pinTrace ++ pevs ∧ pulsesStable s.cfg false pevs = true ∧
      (pevs = [] ∧ t.pins = s.pins ∨ t.pins.e = s.cfg.eOff)

/-- R72: after an operation with a transfer the pins hold the frame of its last transfer, write mode, and a deasserted
enable line. -/
def Obligations.PinsHoldTheLastTransfer : Prop :=
  ∀ (i : Instr) (s t : State) (tag : Tag) (b : Byte) (before rest : List ByteEvent), exec i s = .next t →
    t.trace = s.trace ++ (before ++ transferEvent tag b :: rest) → (∀ ev ∈ rest, eventFrame s.cfg ev = none) →
    t.pins.rw = s.cfg.rwWrite ∧ t.pins.e = s.cfg.eOff ∧ t.pins.rs = tagLevel s.cfg tag ∧ t.pins.db = busByte s.cfg b

/-- R14: no operation drives the write line to anything but write mode. -/
def Obligations.WriteLineIsOnlyDrivenToWrite : Prop :=
  ∀ (i : Instr) (s t : State), exec i s = .next t →
    ∃ pevs, t.pinTrace = s.pinTrace ++ pevs ∧ (∀ v, .setRW v ∈ pevs → v = s.cfg.rwWrite) ∧
      (t.pins.rw = s.pins.rw ∨ t.pins.rw = s.cfg.rwWrite)

/-- R16: the eleven lines are driven from the pin registers while `OE` = 1 and not driven while `OE` = 0; `OE` is set
by `INIT` and `T.INIT`, left alone by every other operation, and cleared by hardware reset alone. One bit for all eleven lines is the spec's own choice (D6). -/
def Obligations.OutputEnableIsSetByInit : Prop :=
  (∀ s : State, s.pins.oe = true → s.outputs.lcdRs = some s.pins.rs ∧ s.outputs.lcdRw = some s.pins.rw ∧
    s.outputs.lcdE = some s.pins.e ∧ s.outputs.lcdDb = some s.pins.db) ∧
  (∀ s : State, s.pins.oe = false →
    s.outputs.lcdRs = none ∧ s.outputs.lcdRw = none ∧ s.outputs.lcdE = none ∧ s.outputs.lcdDb = none) ∧
  (∀ (i : Instr) (s t : State), exec i s = .next t →
    t.pins.oe = (s.pins.oe || decide (i = .init ∨ i = .tInit))) ∧
  (∀ s : State, (hardReset s).pins.oe = false)

/-- R51: the bit-order transform is applied to the byte put on the data bus and shows nowhere else. With `MIRROR` set in
place of clear an operation leaves the same rows, cursors, other pins and byte-level trace, and the same pin events with
the byte of every `SetDB` transformed, commands and data alike (the quiescent `0x00` is a fixed point, R64). -/
def Obligations.MirrorShowsOnTheBusOnly : Prop :=
  ∀ (i : Instr) (s t : State), exec i { s with cfg := { s.cfg with mirror := false } } = .next t →
    ∃ u evs, exec i { s with cfg := { s.cfg with mirror := true } } = .next u ∧ t.pinTrace = s.pinTrace ++ evs ∧
      u = { t with
        cfg := { s.cfg with mirror := true }
        pins := { t.pins with db := if evs = [] then s.pins.db else mirror8 t.pins.db }
        pinTrace := s.pinTrace ++ evs.map PinEvent.mirrored }

/-- R108: the watchdog hook shows as `K` events only. With `WDT_EN` set to either value an operation leaves the same
rows, cursors and pins, and the same byte-level and pin-level traces but for the `K` and `Kick` events; with `WDT_EN`
clear it emits none of these. -/
def Obligations.WatchdogShowsAsKicksOnly : Prop :=
  ∀ (i : Instr) (s t : State) (w : Bool), exec i s = .next t →
    ∃ u evs pevs, exec i { s with cfg := { s.cfg with wdtEn := w } } = .next u ∧
      u = { t with cfg := { s.cfg with wdtEn := w }, trace := s.trace ++ evs, pinTrace := s.pinTrace ++ pevs } ∧
      u.trace.filter (fun ev => decide (ev ≠ .k)) = t.trace.filter (fun ev => decide (ev ≠ .k)) ∧
      u.pinTrace.filter (fun ev => decide (ev ≠ .kick)) = t.pinTrace.filter (fun ev => decide (ev ≠ .kick)) ∧
      (w = false → .k ∉ evs ∧ .kick ∉ pevs)

/-! ## The Line Buffer -/

/-- R82: `WRCH` of a carriage-return changes nothing, in every state. -/
def Obligations.CarriageReturnIsInert : Prop :=
  ∀ s : State, exec (.wrch s.cfg.chCr) s = .next s

/-- R83: `WRCH` of a newline stores spaces in the working row from its cursor to index 15 and sets that cursor to 16;
no event is emitted, and every other cell and the other cursor are as before. The premise on the cursors is the
invariant `CursorsOk` (R24). -/
def Obligations.NewlinePadsInMemoryOnly : Prop :=
  ∀ s : State, s.cfg.wf = true → s.CursorsOk →
    ∃ t, exec (.wrch s.cfg.chNl) s = .next t ∧ t = { s with cells := t.cells, cur0 := t.cur0, cur1 := t.cur1 } ∧
      (∀ r, t.cur r = if r = s.workingRow then 16 else s.cur r) ∧
      (∀ a, t.cells.read a =
        if cellAddr s.workingRow (s.cur s.workingRow).toNat ≤ a ∧ a < cellAddr s.workingRow 16 then some s.cfg.chSpace
        else s.cells.read a)

/-- R84: a visible character on a primary row that is not full is stored at its cursor and sent as data, after the row
move when the row is fresh; the cursor goes up by one, and every other cell is as before. -/
def Obligations.VisibleCharacterFillsThePrimaryRow : Prop :=
  ∀ (ch : Byte) (s : State), charClass s.cfg ch = .visible → s.cur0.toNat < 16 →
    ∃ t evs, exec (.wrch ch) s = .next t ∧
      evs = (if s.cur0.toNat = 0 then [.c s.cfg.cmdRow1, .d ch] else [.d ch]) ∧
      t = { s with
        cells := t.cells
        cur0 := s.cur0 + 1
        pins := { oe := s.pins.oe, rs := s.cfg.rsData, rw := s.cfg.rwWrite, e := s.cfg.eOff, db := busByte s.cfg ch }
        trace := s.trace ++ evs
        pinTrace := s.pinTrace ++ evs.flatMap (expand s.cfg) } ∧
      (∀ a, t.cells.read a = if a = cellAddr .primary s.cur0.toNat then some ch else s.cells.read a)

/-- R86: a visible character with the primary row full and the secondary row not full is stored at the secondary
cursor and sent as data, after the row move when that row is fresh. -/
def Obligations.VisibleCharacterFillsTheSecondaryRow : Prop :=
  ∀ (ch : Byte) (s : State), charClass s.cfg ch = .visible → 16 ≤ s.cur0.toNat → s.cur1.toNat < 16 →
    ∃ t evs, exec (.wrch ch) s = .next t ∧
      evs = (if s.cur1.toNat = 0 then [.c s.cfg.cmdRow2, .d ch] else [.d ch]) ∧
      t = { s with
        cells := t.cells
        cur1 := s.cur1 + 1
        pins := { oe := s.pins.oe, rs := s.cfg.rsData, rw := s.cfg.rwWrite, e := s.cfg.eOff, db := busByte s.cfg ch }
        trace := s.trace ++ evs
        pinTrace := s.pinTrace ++ evs.flatMap (expand s.cfg) } ∧
      (∀ a, t.cells.read a = if a = cellAddr .secondary s.cur1.toNat then some ch else s.cells.read a)

/-- R85, R86: with both rows full a visible character scrolls: the 38 events in order, the old secondary row in the
primary row, the character alone in the secondary row, cursors 16 and 1. That the other cells of the secondary row,
which are stale (R12), hold no value is the model's choice (log 4). The bytes `old` are what the secondary row holds; every one of its cells is valid. -/
def Obligations.FullDisplayScrollsUp : Prop :=
  ∀ (ch : Byte) (s : State) (old : Nat → Byte), charClass s.cfg ch = .visible → 16 ≤ s.cur0.toNat →
    16 ≤ s.cur1.toNat → (∀ i < 16, s.cells.read (cellAddr .secondary i) = some (old i)) →
    ∃ t evs, exec (.wrch ch) s = .next t ∧
      evs = [.c s.cfg.cmdBlinkOff, .c s.cfg.cmdRow1] ++ (List.range 16).map (fun i => .d (old i)) ++
        [.c s.cfg.cmdRow2] ++ List.replicate 16 (.d s.cfg.chSpace) ++
        [.c s.cfg.cmdOnBlink, .c s.cfg.cmdRow2, .d ch] ∧
      t = { s with
        cells := t.cells
        cur1 := 1
        pins := { oe := s.pins.oe, rs := s.cfg.rsData, rw := s.cfg.rwWrite, e := s.cfg.eOff, db := busByte s.cfg ch }
        trace := s.trace ++ evs
        pinTrace := s.pinTrace ++ evs.flatMap (expand s.cfg) } ∧
      (∀ i < 16, t.cells.read (cellAddr .primary i) = some (old i)) ∧
      (∀ i < 16, t.cells.read (cellAddr .secondary i) = if i = 0 then some ch else none) ∧
      (∀ a, 32 ≤ a → t.cells.read a = s.cells.read a)

/-- R87: `INIT` runs the nine steps of `T.INIT` and then resets both cursors; all 32 cells become stale. The order
is D13; that a stale cell holds no value is the model's choice (log 4). -/
def Obligations.InitStartsTheDisplay : Prop :=
  ∀ s : State, ∃ t u, exec .init s = .next t ∧ exec .tInit s = .next u ∧
    t = { u with cells := t.cells, cur0 := 0, cur1 := 0 } ∧
    (∀ r, ∀ i < 16, t.cells.read (cellAddr r i) = none) ∧ (∀ a, 32 ≤ a → t.cells.read a = s.cells.read a)

/-- R88: `CLRS` sends the clear command, waits, and resets both cursors; all 32 cells become stale. That a
stale cell holds no value is the model's choice (log 4). -/
def Obligations.ClearScreenEmptiesBothRows : Prop :=
  ∀ s : State, ∃ t u, exec .clrs s = .next t ∧ exec .tClear s = .next u ∧
    t = { u with cells := t.cells, cur0 := 0, cur1 := 0 } ∧
    (∀ r, ∀ i < 16, t.cells.read (cellAddr r i) = none) ∧ (∀ a, 32 ≤ a → t.cells.read a = s.cells.read a)

/-- R89: `WRSTR` is `WRCH` of each byte in order, with nothing added, and it completes. -/
def Obligations.WriteStringIsCharacterByCharacter : Prop :=
  ∀ (cs : List Byte) (s : State), exec (.wrstr cs) s = execAll (cs.map .wrch) s ∧ ∃ t, exec (.wrstr cs) s = .next t

/-- R90: the reserved host code changes nothing, in every state: the spec's own choice (D5; log 9). -/
def Obligations.ReservedCodeChangesNothing : Prop :=
  ∀ s : State, exec .rsvd s = .next s

/-- R93, R10, R84, R86: up to 16 visible characters written to a fresh working row land in its cells in order, its
cursor counts them, and the byte-level trace is the row move and then one data byte per character, equal to the cells.
No other cell changes. -/
def Obligations.FreshRowHoldsWhatWasSent : Prop :=
  ∀ (cs : List Byte) (s : State), cs ≠ [] → cs.length ≤ 16 → (∀ ch ∈ cs, charClass s.cfg ch = .visible) →
    s.cur s.workingRow = 0 →
    ∃ t, exec (.wrstr cs) s = .next t ∧
      t.trace = s.trace ++
        .c (if s.workingRow = .primary then s.cfg.cmdRow1 else s.cfg.cmdRow2) :: cs.map .d ∧
      (∀ r, (t.cur r).toNat = if r = s.workingRow then cs.length else (s.cur r).toNat) ∧
      (∀ i < cs.length, t.cells.read (cellAddr s.workingRow i) = cs[i]?) ∧
      (∀ a, a < cellAddr s.workingRow 0 ∨ cellAddr s.workingRow cs.length ≤ a → t.cells.read a = s.cells.read a)

/-- R80: the working row is derived from the primary cursor alone, and once the primary row is full it stays full,
with the secondary row the working row, through every operation but `INIT` and `CLRS`. -/
def Obligations.FullPrimaryStaysFull : Prop :=
  (∀ s : State, s.workingRow = if s.cur0.toNat < 16 then .primary else .secondary) ∧
  (∀ (i : Instr) (s t : State), i ≠ .init → i ≠ .clrs → s.cur0.toNat = 16 → exec i s = .next t →
    t.cur0.toNat = 16 ∧ t.workingRow = .secondary)

/-- R94: how many events of each kind each host operation emits. -/
def Obligations.EventCountsOfHostOperations : Prop :=
  ∀ s : State, ∀ i : Instr, ∀ t evs, exec i s = .next t → t.trace = s.trace ++ evs →
    (i = .init → countEvents evs = ⟨5, 1, 2, if s.cfg.wdtEn then 4 else 0, 1⟩) ∧
    (i = .clrs → countEvents evs = ⟨1, 0, 1, if s.cfg.wdtEn then 2 else 0, 0⟩) ∧
    (i = .rsvd → countEvents evs = ⟨0, 0, 0, 0, 0⟩) ∧
    (∀ ch, i = .wrch ch → charClass s.cfg ch ≠ .visible → countEvents evs = ⟨0, 0, 0, 0, 0⟩) ∧
    (∀ ch, i = .wrch ch → charClass s.cfg ch = .visible →
      (s.cur0.toNat = 0 → countEvents evs = ⟨1, 1, 0, 0, 0⟩) ∧
      (0 < s.cur0.toNat ∧ s.cur0.toNat < 16 → countEvents evs = ⟨0, 1, 0, 0, 0⟩) ∧
      (s.cur0.toNat = 16 ∧ s.cur1.toNat = 0 → countEvents evs = ⟨1, 1, 0, 0, 0⟩) ∧
      (s.cur0.toNat = 16 ∧ 0 < s.cur1.toNat ∧ s.cur1.toNat < 16 → countEvents evs = ⟨0, 1, 0, 0, 0⟩) ∧
      (s.cur0.toNat = 16 ∧ s.cur1.toNat = 16 → countEvents evs = ⟨5, 33, 0, 0, 0⟩))

/-- R130: the least time, in microseconds, that each host operation keeps the core busy. -/
def Obligations.LeastDurationsOfHostOperations : Prop :=
  ∀ s : State, ∀ i : Instr, ∀ t pevs, exec i s = .next t → t.pinTrace = s.pinTrace ++ pevs →
    (i = .init → eventsMicros pevs = 600480) ∧
    (i = .clrs → eventsMicros pevs = 500080) ∧
    (i = .rsvd → eventsMicros pevs = 0) ∧
    (∀ ch, i = .wrch ch → charClass s.cfg ch ≠ .visible → eventsMicros pevs = 0) ∧
    (∀ ch, i = .wrch ch → charClass s.cfg ch = .visible →
      (s.cur s.workingRow = 0 → eventsMicros pevs = 160) ∧
      (0 < (s.cur s.workingRow).toNat ∧ (s.cur s.workingRow).toNat < 16 → eventsMicros pevs = 80) ∧
      (16 ≤ (s.cur s.workingRow).toNat → eventsMicros pevs = 3040))

/-- R132: the cycles of a wait are the least number that lasts at least its minimum, at every clock frequency of a whole
number of hertz (that `F_CLK` is one is the model's choice, log 13). -/
def Obligations.WaitCyclesCoverTheMinimum : Prop :=
  ∀ (f n : Nat) (d : Duration), waitCycles f d ≤ n ↔ d.minMicros * f ≤ n * 1000000

/-! ## Invariants -/

/-- R24, R91: both cursors are in 0..16 and the secondary row is unused until the primary is full after hardware reset,
and a step of an idle core, whatever word it takes, keeps it so. -/
def Obligations.StepKeepsTheCursorInvariant : Prop :=
  (∀ cfg : Config, (State.resetOf cfg).CursorsOk) ∧
  (∀ s t : State, s.busy = false → s.CursorsOk → step s = .next t → t.CursorsOk ∧ t.busy = false)

/-- Every step keeps the whole invariant: cursors (R24, R91), row memory in canonical form with a value in exactly the
valid cells (R12), pins at rest (R14, R70), traces that agree with each other and with the pins (R73), an idle core. -/
def Obligations.StepKeepsTheInvariant : Prop :=
  ∀ s t : State, s.Inv → step s = .next t → t.Inv

/-- The invariant holds after hardware reset of every instance. -/
def Obligations.ResetMeetsTheInvariant : Prop :=
  ∀ cfg : Config, (State.resetOf cfg).Inv

/-- R92, R128: no operation reads a stale cell. Two states that differ in stale cells only lead to states that differ in
stale cells only, with the same pins, cursors and traces. -/
def Obligations.StaleCellsAreNeverRead : Prop :=
  ∀ (i : Instr) (s s' t : State), s.AgreeOnValid s' → exec i s = .next t →
    ∃ t', exec i s' = .next t' ∧ t.AgreeOnValid t'

/-- R17: no operation, no step and no tick of the port changes a parameter; and no operation touches `busy`, the
sequencer or the words the environment presents. -/
def Obligations.ParametersNeverChange : Prop :=
  (∀ (i : Instr) (s t : State), exec i s = .next t →
    t.cfg = s.cfg ∧ t.busy = s.busy ∧ t.seq = s.seq ∧ t.script = s.script) ∧
  (∀ s t : State, step s = .next t → t.cfg = s.cfg) ∧
  (∀ (p : PortIn) (s : State), (tick p s).cfg = s.cfg)

/-! ## Reset, boot and the port -/

/-- R23: the state after hardware reset: both cursors 0, every cell stale, lines not driven, command mode, write
mode, enable deasserted, `0x00` on the bus register, idle, empty traces; and the values after `INIT`, from any
state. The values of hardware reset are the spec's own choice (D14). -/
def Obligations.ResetValues : Prop :=
  (∀ cfg : Config, ∀ s, s = State.resetOf cfg →
    s.cur0 = 0 ∧ s.cur1 = 0 ∧ (∀ r i, s.cellValid r i = false) ∧ s.pins.oe = false ∧ s.pins.rs = cfg.rsCmd ∧
    s.pins.rw = cfg.rwWrite ∧ s.pins.e = cfg.eOff ∧ s.pins.db = 0x00#8 ∧ s.busy = false ∧ s.seq = [] ∧
    s.trace = [] ∧ s.pinTrace = []) ∧
  (∀ s : State, ∃ t, exec .init s = .next t ∧ t.cur0 = 0 ∧ t.cur1 = 0 ∧ t.pins.oe = true ∧ t.pins.rs = s.cfg.rsCmd ∧
    t.pins.rw = s.cfg.rwWrite ∧ t.pins.e = s.cfg.eOff ∧ t.pins.db = busByte s.cfg s.cfg.cmdRow1 ∧
    (∀ r i, t.cellValid r i = false))

/-- R115, R103: hardware reset wins over everything, in the middle of an operation too: the operation is abandoned, the
state is that of R23, and no line is driven. The reset event is the spec's own choice (D14, D15); that the words still
to be presented stay (log 19) and that no cell holds a value (log 3) is the model's. -/
def Obligations.HardwareResetWins : Prop :=
  ∀ (p : PortIn) (s : State), p.rstN = false →
    tick p s = { State.resetOf s.cfg with script := s.script } ∧
    (tick p s).outputs =
      { lcdRs := none, lcdRw := none, lcdE := none, lcdDb := none, lcdOe := false, busy := false, cmdReady := true }

/-- R119: a visible character after hardware reset and before `INIT` follows its rule, with the lines not driven. -/
def Obligations.CharacterBeforeInitDrivesNoLine : Prop :=
  ∀ (cfg : Config) (ch : Byte), charClass cfg ch = .visible →
    ∃ t, exec (.wrch ch) (State.resetOf cfg) = .next t ∧ t.trace = [.c cfg.cmdRow1, .d ch] ∧ t.cur0 = 1 ∧
      t.cur1 = 0 ∧ t.cells.read (cellAddr .primary 0) = some ch ∧ t.pins.oe = false ∧
      t.outputs.lcdE = none ∧ t.outputs.lcdRs = none ∧ t.outputs.lcdRw = none ∧ t.outputs.lcdDb = none

/-- R120: `INIT` runs the same rule from whatever state it finds. From any two states of one instance, the one an
earlier `INIT` left among them, it completes with the same events on both traces, the same pins and cursors 0, with no
cell valid and everything else as it was; one directly after another changes the traces alone. -/
def Obligations.RepeatedInitIsTheSame : Prop :=
  (∀ s s' : State, s'.cfg = s.cfg → ∃ t t' evs pevs, exec .init s = .next t ∧ exec .init s' = .next t' ∧
    t = { s with
      cells := t.cells, cur0 := 0, cur1 := 0, pins := t.pins, trace := s.trace ++ evs, pinTrace := s.pinTrace ++ pevs } ∧
    t' = { s' with
      cells := t'.cells, cur0 := 0, cur1 := 0, pins := t.pins, trace := s'.trace ++ evs
      pinTrace := s'.pinTrace ++ pevs } ∧
    (∀ r i, t.cellValid r i = false ∧ t'.cellValid r i = false)) ∧
  (∀ s t u : State, exec .init s = .next t → exec .init t = .next u →
    u = { t with trace := u.trace, pinTrace := u.pinTrace })

/-- R18, R43, R58: a valid word on the port of an idle core is the operation executed; the core stays busy to its end,
takes no word presented in that time, and ends in the state the operation as a whole leads to. That a tick is one pin
event, and that an operation with no event takes one tick, is the model's choice (log 8). -/
def Obligations.PortRunsTheAcceptedOperation : Prop :=
  ∀ (s t : State) (p : PortIn) (ps : List PortIn), s.busy = false → s.seq = [] → p.rstN = true → p.cmdValid = true →
    (∀ q ∈ ps, q.rstN = true) → ps.length = busyTicks (opActions (decode .host p.hostWord) s) →
    exec (decode .host p.hostWord) s = .next t →
    ticks (p :: ps) s = t ∧ ∀ k < ps.length, (ticks (p :: ps.take k) s).busy = true

/-- R58, R113: an idle core with no valid word holds everything. -/
def Obligations.IdlePortHoldsEverything : Prop :=
  ∀ (p : PortIn) (s : State), s.busy = false → p.rstN = true → p.cmdValid = false → tick p s = s
end

