-- ==== Sys2Proof/Laws/Memory.lean ====
section
/-! SUPPORT. The laws of row memory: reading after writing, reading after a row has gone stale, and that both
operations keep the canonical form. -/

namespace Sys2Proof.Machine

@[simp] theorem Memory.read_nil (k : Nat) : Memory.read [] k = none := rfl

theorem Memory.read_cons (a : Nat) (w : Byte) (m : Memory) (k : Nat) :
    Memory.read ((a, w) :: m) k = if a = k then some w else Memory.read m k := rfl

/-- A read after a write to the same cell gives the value written. -/
@[simp] theorem Memory.read_write_same (m : Memory) (k : Nat) (v : Byte) : (m.write k v).read k = some v := by
  induction m with
  | nil => simp [Memory.write, Memory.read_cons]
  | cons c m ih =>
    obtain ⟨a, w⟩ := c
    simp only [Memory.write]
    split
    · simp [Memory.read_cons]
    · split
      · simp [Memory.read_cons]
      · rename_i h₁ h₂
        simp [Memory.read_cons, ih, Ne.symm h₂]

/-- A write leaves every other cell alone. -/
theorem Memory.read_write_other (m : Memory) {k j : Nat} (v : Byte) (h : j ≠ k) : (m.write k v).read j = m.read j := by
  induction m with
  | nil => simp [Memory.write, Memory.read_cons, Ne.symm h]
  | cons c m ih =>
    obtain ⟨a, w⟩ := c
    simp only [Memory.write]
    split
    · simp [Memory.read_cons, Ne.symm h]
    · split
      · rename_i h₂
        simp [Memory.read_cons, ← h₂, Ne.symm h]
      · simp [Memory.read_cons, ih]

theorem Memory.read_write (m : Memory) (k j : Nat) (v : Byte) :
    (m.write k v).read j = if j = k then some v else m.read j := by
  split
  · subst_vars; simp
  · exact Memory.read_write_other m v ‹_›

/-- A row that has gone stale holds no value, and the other row is as before (R12, R13). -/
theorem Memory.read_dropRow (m : Memory) (r : Row) (k : Nat) :
    (m.dropRow r).read k = if inRow r k then none else m.read k := by
  induction m with
  | nil => simp [Memory.dropRow]
  | cons c m ih =>
    obtain ⟨a, w⟩ := c
    simp only [Memory.dropRow, List.filter_cons] at ih ⊢
    by_cases ha : inRow r a = true
    · by_cases hk : a = k
      · subst hk; simpa [ha] using ih
      · simpa [ha, Memory.read_cons, hk] using ih
    · by_cases hk : a = k
      · subst hk; simp [ha, Memory.read_cons]
      · simpa [ha, Memory.read_cons, hk] using ih

/-- The address of a cell, for arithmetic (R31). -/
theorem cellAddr_primary (i : Nat) : cellAddr .primary i = i := by simp [cellAddr, rowIndex]
theorem cellAddr_secondary (i : Nat) : cellAddr .secondary i = 16 + i := by simp [cellAddr, rowIndex]
theorem cellAddr_eq (r : Row) (i : Nat) : cellAddr r i = cellAddr r 0 + i := by simp [cellAddr]

theorem inRow_cellAddr (r q : Row) {i : Nat} (h : i < 16) : inRow r (cellAddr q i) = decide (r = q) := by
  cases r <;> cases q <;> simp [inRow, cellAddr, rowIndex] <;> omega

/-- The address of a cell names its row and its index. -/
theorem cellAddr_inj {r q : Row} {i j : Nat} (hi : i < 16) (hj : j < 16) :
    cellAddr r i = cellAddr q j ↔ r = q ∧ i = j := by
  cases r <;> cases q <;> simp [cellAddr, rowIndex] <;> omega

theorem cellAddr_lt (r : Row) {i : Nat} (h : i < 16) : cellAddr r i < 32 := by
  cases r <;> simp [cellAddr, rowIndex] <;> omega

theorem Memory.wfFrom_mono {lo lo' : Nat} {m : Memory} (h : lo' ≤ lo) (hm : Memory.wfFrom lo m = true) :
    Memory.wfFrom lo' m = true := by
  cases m with
  | nil => rfl
  | cons c m =>
    obtain ⟨a, w⟩ := c
    simp only [Memory.wfFrom, Bool.and_eq_true, decide_eq_true_eq] at hm ⊢
    exact ⟨⟨by omega, hm.1.2⟩, hm.2⟩

theorem Memory.wfFrom_write {lo k : Nat} {m : Memory} (v : Byte) (hm : Memory.wfFrom lo m = true) (hlo : lo ≤ k)
    (hk : k < 32) : Memory.wfFrom lo (m.write k v) = true := by
  induction m generalizing lo with
  | nil => simp [Memory.write, Memory.wfFrom, hlo, hk]
  | cons c m ih =>
    obtain ⟨a, w⟩ := c
    simp only [Memory.wfFrom, Bool.and_eq_true, decide_eq_true_eq] at hm
    simp only [Memory.write]
    split
    · simp [Memory.wfFrom, hlo, hk, hm.1.2, hm.2]; omega
    · split
      · simp_all [Memory.wfFrom]
      · simp only [Memory.wfFrom, hm.1, ih hm.2 (by omega), decide_true, Bool.and_self]

theorem Memory.wfFrom_dropRow {lo : Nat} {m : Memory} (r : Row) (hm : Memory.wfFrom lo m = true) :
    Memory.wfFrom lo (m.dropRow r) = true := by
  induction m generalizing lo with
  | nil => rfl
  | cons c m ih =>
    obtain ⟨a, w⟩ := c
    simp only [Memory.wfFrom, Bool.and_eq_true, decide_eq_true_eq] at hm
    have h := ih hm.2
    simp only [Memory.dropRow, List.filter_cons] at h ⊢
    split
    · simp only [Memory.wfFrom, hm.1, h, decide_true, Bool.and_self]
    · exact Memory.wfFrom_mono (by omega) h

/-- A write to one of the 32 cells keeps the canonical form. -/
theorem Memory.wf_write {k : Nat} {m : Memory} (v : Byte) (hm : m.wf = true) (hk : k < 32) : (m.write k v).wf = true :=
  Memory.wfFrom_write v hm (Nat.zero_le k) hk

/-- A row going stale keeps the canonical form. -/
theorem Memory.wf_dropRow {m : Memory} (r : Row) (hm : m.wf = true) : (m.dropRow r).wf = true :=
  Memory.wfFrom_dropRow r hm

theorem Memory.wf_nil : Memory.wf [] = true := rfl

end Sys2Proof.Machine
end

