-- ==== Sys2Proof/Laws/State.lean ====
section
/-! SUPPORT. One lemma per field per update of State. -/

namespace Sys2Proof.Machine

variable (s : State) (p : Pins)

@[simp] theorem State.cur_primary : s.cur .primary = s.cur0 := rfl
@[simp] theorem State.cur_secondary : s.cur .secondary = s.cur1 := rfl

section setCur
variable (r q : Row) (c : Cursor)

@[simp] theorem State.setCur_cfg : (s.setCur r c).cfg = s.cfg := by cases r <;> rfl
@[simp] theorem State.setCur_cells : (s.setCur r c).cells = s.cells := by cases r <;> rfl
@[simp] theorem State.setCur_pins : (s.setCur r c).pins = s.pins := by cases r <;> rfl
@[simp] theorem State.setCur_busy : (s.setCur r c).busy = s.busy := by cases r <;> rfl
@[simp] theorem State.setCur_seq : (s.setCur r c).seq = s.seq := by cases r <;> rfl
@[simp] theorem State.setCur_trace : (s.setCur r c).trace = s.trace := by cases r <;> rfl
@[simp] theorem State.setCur_pinTrace : (s.setCur r c).pinTrace = s.pinTrace := by cases r <;> rfl
@[simp] theorem State.setCur_script : (s.setCur r c).script = s.script := by cases r <;> rfl
@[simp] theorem State.setCur_cur_same : (s.setCur r c).cur r = c := by cases r <;> rfl
@[simp] theorem State.setCur_primary_cur0 : (s.setCur .primary c).cur0 = c := rfl
@[simp] theorem State.setCur_primary_cur1 : (s.setCur .primary c).cur1 = s.cur1 := rfl
@[simp] theorem State.setCur_secondary_cur0 : (s.setCur .secondary c).cur0 = s.cur0 := rfl
@[simp] theorem State.setCur_secondary_cur1 : (s.setCur .secondary c).cur1 = c := rfl

theorem State.setCur_cur (h : q ≠ r) : (s.setCur r c).cur q = s.cur q := by
  cases r <;> cases q <;> first | rfl | exact absurd rfl h

end setCur

section apply
variable (v : Level) (b : Byte) (t : Duration)

@[simp] theorem Pins.apply_setOE : p.apply (.setOE v) = { p with oe := v } := rfl
@[simp] theorem Pins.apply_setRS : p.apply (.setRS v) = { p with rs := v } := rfl
@[simp] theorem Pins.apply_setRW : p.apply (.setRW v) = { p with rw := v } := rfl
@[simp] theorem Pins.apply_setDB : p.apply (.setDB b) = { p with db := b } := rfl
@[simp] theorem Pins.apply_setE : p.apply (.setE v) = { p with e := v } := rfl
@[simp] theorem Pins.apply_wait : p.apply (.wait t) = p := rfl
@[simp] theorem Pins.apply_kick : p.apply .kick = p := rfl

end apply

section run
variable (ev : PinEvent) (bv : ByteEvent) (a : Nat) (v : Byte) (r : Row)

@[simp] theorem Action.run_pin :
    (Action.pin ev).run s = { s with pins := s.pins.apply ev, pinTrace := s.pinTrace ++ [ev] } := rfl
@[simp] theorem Action.run_note : (Action.note bv).run s = { s with trace := s.trace ++ [bv] } := rfl
@[simp] theorem Action.run_store : (Action.store a v).run s = { s with cells := s.cells.write a v } := rfl
@[simp] theorem Action.run_bump : (Action.bump r).run s = s.setCur r (s.cur r + 1) := rfl
@[simp] theorem Action.run_resetRow :
    (Action.resetRow r).run s = { s.setCur r 0 with cells := s.cells.dropRow r } := rfl

variable (x : Action)

@[simp] theorem Action.run_cfg : (x.run s).cfg = s.cfg := by cases x <;> simp
@[simp] theorem Action.run_busy : (x.run s).busy = s.busy := by cases x <;> simp
@[simp] theorem Action.run_seq : (x.run s).seq = s.seq := by cases x <;> simp
@[simp] theorem Action.run_script : (x.run s).script = s.script := by cases x <;> simp

end run

section perform
variable (as bs : List Action)

@[simp] theorem perform_nil : perform [] s = s := rfl
@[simp] theorem perform_cons (a : Action) : perform (a :: as) s = perform as (a.run s) := rfl

@[simp] theorem perform_append : perform (as ++ bs) s = perform bs (perform as s) := by
  induction as generalizing s with
  | nil => rfl
  | cons a as ih => exact ih (a.run s)

/-- No line of any operation writes the parameters, `busy`, the sequencer or the script. -/
@[simp] theorem perform_cfg : (perform as s).cfg = s.cfg := by
  induction as generalizing s with
  | nil => rfl
  | cons a as ih => simp [ih]
@[simp] theorem perform_busy : (perform as s).busy = s.busy := by
  induction as generalizing s with
  | nil => rfl
  | cons a as ih => simp [ih]
@[simp] theorem perform_seq : (perform as s).seq = s.seq := by
  induction as generalizing s with
  | nil => rfl
  | cons a as ih => simp [ih]
@[simp] theorem perform_script : (perform as s).script = s.script := by
  induction as generalizing s with
  | nil => rfl
  | cons a as ih => simp [ih]

/-- `busy`, the sequencer and the script are beside the point for the lines of an operation. -/
theorem Action.run_frame (a : Action) (b : Bool) (q : List Action) (ps : List Presented) :
    a.run { s with busy := b, seq := q, script := ps } = { a.run s with busy := b, seq := q, script := ps } := by
  cases a with
  | pin ev => rfl
  | note ev => rfl
  | store k v => rfl
  | bump r => cases r <;> rfl
  | resetRow r => cases r <;> rfl

theorem perform_frame (b : Bool) (q : List Action) (ps : List Presented) :
    perform as { s with busy := b, seq := q, script := ps } =
      { perform as s with busy := b, seq := q, script := ps } := by
  induction as generalizing s with
  | nil => rfl
  | cons a as ih => rw [perform_cons, Action.run_frame, ih, perform_cons]

end perform

end Sys2Proof.Machine
end

