-- ==== Sys2Proof/Laws/Perform.lean ====
section
/-! SUPPORT. Everything that performing the lines of an operation can do: what it appends to the two traces, what it
leaves in the pins, and that a line touches row memory and cursors only where it says so. -/

namespace Sys2Proof.Machine

/-- The byte-level events among the lines. -/
def notesOf : List Action → List ByteEvent
  | [] => []
  | .note ev :: as => ev :: notesOf as
  | .pin _ :: as => notesOf as
  | .store _ _ :: as => notesOf as
  | .bump _ :: as => notesOf as
  | .resetRow _ :: as => notesOf as

/-- The pin events among the lines. -/
def pinsOf : List Action → List PinEvent
  | [] => []
  | .pin ev :: as => ev :: pinsOf as
  | .note _ :: as => pinsOf as
  | .store _ _ :: as => pinsOf as
  | .bump _ :: as => pinsOf as
  | .resetRow _ :: as => pinsOf as

/-- The lines that write row memory or a cursor. -/
def writesOf : List Action → List Action
  | [] => []
  | .pin _ :: as => writesOf as
  | .note _ :: as => writesOf as
  | .store a v :: as => .store a v :: writesOf as
  | .bump r :: as => .bump r :: writesOf as
  | .resetRow r :: as => .resetRow r :: writesOf as

section split
variable (as bs : List Action)

@[simp] theorem notesOf_append : notesOf (as ++ bs) = notesOf as ++ notesOf bs := by
  induction as with
  | nil => rfl
  | cons a as ih => cases a <;> simp [notesOf, ih]

@[simp] theorem pinsOf_append : pinsOf (as ++ bs) = pinsOf as ++ pinsOf bs := by
  induction as with
  | nil => rfl
  | cons a as ih => cases a <;> simp [pinsOf, ih]

@[simp] theorem writesOf_append : writesOf (as ++ bs) = writesOf as ++ writesOf bs := by
  induction as with
  | nil => rfl
  | cons a as ih => cases a <;> simp [writesOf, ih]

variable {α : Type} (l : List α) (f : α → List Action)

@[simp] theorem notesOf_flatMap : notesOf (l.flatMap f) = l.flatMap fun x => notesOf (f x) := by
  induction l with
  | nil => rfl
  | cons x l ih => simp [List.flatMap_cons, ih]

@[simp] theorem pinsOf_flatMap : pinsOf (l.flatMap f) = l.flatMap fun x => pinsOf (f x) := by
  induction l with
  | nil => rfl
  | cons x l ih => simp [List.flatMap_cons, ih]

@[simp] theorem writesOf_flatMap : writesOf (l.flatMap f) = l.flatMap fun x => writesOf (f x) := by
  induction l with
  | nil => rfl
  | cons x l ih => simp [List.flatMap_cons, ih]

end split

section perform
variable (as : List Action) (s : State)

/-- The byte-level trace grows by the byte-level events of the lines, and by nothing else. -/
theorem perform_trace : (perform as s).trace = s.trace ++ notesOf as := by
  induction as generalizing s with
  | nil => simp [notesOf]
  | cons a as ih => cases a <;> simp [ih, notesOf]

/-- The pin-level trace grows by the pin events of the lines, and by nothing else. -/
theorem perform_pinTrace : (perform as s).pinTrace = s.pinTrace ++ pinsOf as := by
  induction as generalizing s with
  | nil => simp [pinsOf]
  | cons a as ih => cases a <;> simp [ih, pinsOf]

/-- The pins hold what the pin events of the lines, in order, write to them. -/
theorem perform_pins : (perform as s).pins = (pinsOf as).foldl Pins.apply s.pins := by
  induction as generalizing s with
  | nil => rfl
  | cons a as ih => cases a <;> simp [ih, pinsOf]

/-- Row memory depends on the writing lines only. -/
theorem perform_cells : (perform as s).cells = (perform (writesOf as) s).cells := by
  suffices h : ∀ t : State, t.cells = s.cells → t.cur0 = s.cur0 → t.cur1 = s.cur1 →
      (perform as t).cells = (perform (writesOf as) s).cells from h s rfl rfl rfl
  induction as generalizing s with
  | nil => intro t hc _ _; exact hc
  | cons a as ih =>
    intro t hc h0 h1
    cases a with
    | pin ev => exact ih s _ hc h0 h1
    | note ev => exact ih s _ hc h0 h1
    | store k v => exact ih _ _ (by simp [hc]) h0 h1
    | bump r => cases r <;> exact ih _ _ (by simp [hc]) (by simp [h0]) (by simp [h1])
    | resetRow r => cases r <;> exact ih _ _ (by simp [hc]) (by simp [h0]) (by simp [h1])

/-- The cursors depend on the writing lines only. -/
theorem perform_cur (r : Row) : (perform as s).cur r = (perform (writesOf as) s).cur r := by
  suffices h : ∀ t : State, t.cur0 = s.cur0 → t.cur1 = s.cur1 →
      (perform as t).cur r = (perform (writesOf as) s).cur r from h s rfl rfl
  induction as generalizing s with
  | nil => intro t h0 h1; cases r <;> assumption
  | cons a as ih =>
    intro t h0 h1
    cases a with
    | pin ev => exact ih s _ h0 h1
    | note ev => exact ih s _ h0 h1
    | store k v => exact ih _ _ h0 h1
    | bump q => cases q <;> exact ih _ _ (by simp [h0]) (by simp [h1])
    | resetRow q => cases q <;> exact ih _ _ (by simp [h0]) (by simp [h1])

theorem perform_cur0 : (perform as s).cur0 = (perform (writesOf as) s).cur0 := perform_cur as s .primary
theorem perform_cur1 : (perform as s).cur1 = (perform (writesOf as) s).cur1 := perform_cur as s .secondary

/-- Two states are equal when all their fields are. -/
theorem State.ext_fields {s t : State} (h₁ : s.cfg = t.cfg) (h₂ : s.cells = t.cells) (h₃ : s.cur0 = t.cur0)
    (h₄ : s.cur1 = t.cur1) (h₅ : s.pins = t.pins) (h₆ : s.busy = t.busy) (h₇ : s.seq = t.seq)
    (h₈ : s.trace = t.trace) (h₉ : s.pinTrace = t.pinTrace) (h₁₀ : s.script = t.script) : s = t := by
  cases s; cases t; simp_all

/-- Everything the lines of an operation do: the writing lines decide row memory and cursors, the events decide pins
and traces, and nothing else changes. -/
theorem perform_eq : perform as s = { s with
    cells := (perform (writesOf as) s).cells
    cur0 := (perform (writesOf as) s).cur0
    cur1 := (perform (writesOf as) s).cur1
    pins := (pinsOf as).foldl Pins.apply s.pins
    trace := s.trace ++ notesOf as
    pinTrace := s.pinTrace ++ pinsOf as } :=
  State.ext_fields (perform_cfg s as) (perform_cells as s) (perform_cur0 as s) (perform_cur1 as s) (perform_pins as s)
    (perform_busy s as) (perform_seq s as) (perform_trace as s) (perform_pinTrace as s) (perform_script s as)

end perform

section procedures
variable (cfg : Config) (t : Tag) (b : Byte) (d : Duration)

@[simp] theorem notesOf_xfer : notesOf (xfer cfg t b) = [transferEvent t b] := rfl
@[simp] theorem writesOf_xfer : writesOf (xfer cfg t b) = [] := rfl
/-- A transfer's pin events are the expansion of its byte-level event (R62, R73). -/
@[simp] theorem pinsOf_xfer : pinsOf (xfer cfg t b) = expand cfg (transferEvent t b) := by cases t <;> rfl

@[simp] theorem notesOf_kickHook : notesOf (kickHook cfg) = if cfg.wdtEn then [.k] else [] := by
  unfold kickHook; split <;> rfl
@[simp] theorem writesOf_kickHook : writesOf (kickHook cfg) = [] := by unfold kickHook; split <;> rfl
@[simp] theorem pinsOf_kickHook : pinsOf (kickHook cfg) = (notesOf (kickHook cfg)).flatMap (expand cfg) := by
  unfold kickHook; split <;> rfl

@[simp] theorem notesOf_settle :
    notesOf (settle cfg d) = if cfg.wdtEn then [.k, .w d, .k] else [.w d] := by
  cases h : cfg.wdtEn <;> simp [settle, h, notesOf]
@[simp] theorem writesOf_settle : writesOf (settle cfg d) = [] := by simp [settle, writesOf]
/-- A settle wait's pin events are the expansion of its byte-level events (R63, R73). -/
@[simp] theorem pinsOf_settle : pinsOf (settle cfg d) = (notesOf (settle cfg d)).flatMap (expand cfg) := by
  cases h : cfg.wdtEn <;> simp [settle, h, notesOf, pinsOf, expand]

@[simp] theorem notesOf_quiesce : notesOf (quiesce cfg) = [.q] := rfl
@[simp] theorem writesOf_quiesce : writesOf (quiesce cfg) = [] := rfl
@[simp] theorem pinsOf_quiesce : pinsOf (quiesce cfg) = expand cfg .q := rfl

/-- A transfer leaves `OE` alone and puts its frame on the pins, with the enable line deasserted (R62, R72). -/
theorem foldl_expand_transfer (p : Pins) : (expand cfg (transferEvent t b)).foldl Pins.apply p =
    { oe := p.oe, rs := tagLevel cfg t, rw := cfg.rwWrite, e := cfg.eOff, db := busByte cfg b } := by
  cases t <;> rfl

end procedures

end Sys2Proof.Machine
end

