-- ==== Sys2Proof/Laws/Operations.lean ====
section
/-! SUPPORT. What the lines of each operation are made of: its byte-level events, that its pin events are their
expansion, and what its writing lines do to row memory and the cursors. -/

namespace Sys2Proof.Machine

/-- The pin events of the lines are the expansion of their byte-level events. -/
abbrev Expands (cfg : Config) (as : List Action) : Prop := pinsOf as = (notesOf as).flatMap (expand cfg)

theorem Expands.append {cfg : Config} {as bs : List Action} (ha : Expands cfg as) (hb : Expands cfg bs) :
    Expands cfg (as ++ bs) := by
  simp only [Expands] at *; simp [ha, hb]

theorem Expands.flatMap {cfg : Config} {α : Type} {l : List α} {f : α → List Action}
    (h : ∀ x, Expands cfg (f x)) : Expands cfg (l.flatMap f) := by
  induction l with
  | nil => rfl
  | cons x l ih => simpa only [List.flatMap_cons] using (h x).append ih

theorem Expands.ite {cfg : Config} {p : Prop} [Decidable p] {as : List Action} (h : Expands cfg as) :
    Expands cfg (if p then as else []) := by
  split
  · exact h
  · rfl

section transport
variable (cfg : Config) (b : Byte) (t : Tag) (d : Duration)

theorem expands_xfer : Expands cfg (xfer cfg t b) := by simp [Expands]
theorem expands_settle : Expands cfg (settle cfg d) := pinsOf_settle cfg d

@[simp] theorem notesOf_tCmd : notesOf (tCmdActions cfg b) = [.c b] := rfl
@[simp] theorem notesOf_tData : notesOf (tDataActions cfg b) = [.d b] := rfl
@[simp] theorem writesOf_tCmd : writesOf (tCmdActions cfg b) = [] := rfl
@[simp] theorem writesOf_tData : writesOf (tDataActions cfg b) = [] := rfl
@[simp] theorem writesOf_tClear : writesOf (tClearActions cfg) = [] := by simp [tClearActions]
@[simp] theorem writesOf_tInit : writesOf (tInitActions cfg) = [] := by simp [tInitActions]
theorem expands_tCmd : Expands cfg (tCmdActions cfg b) := expands_xfer cfg b .cmd
theorem expands_tData : Expands cfg (tDataActions cfg b) := expands_xfer cfg b .data
theorem expands_tClear : Expands cfg (tClearActions cfg) := (expands_xfer cfg _ .cmd).append (expands_settle cfg _)
theorem expands_tInit : Expands cfg (tInitActions cfg) := by
  simp [Expands, tInitActions]

end transport

section lineBuffer
variable (s : State) (ch : Byte)

@[simp] theorem notesOf_pad : notesOf (padActions s) = [] := by simp [padActions, notesOf]
@[simp] theorem pinsOf_pad : pinsOf (padActions s) = [] := by simp [padActions, pinsOf]

/-- The byte-level events of `put_primary` (R84). -/
theorem notesOf_putPrimary : notesOf (putPrimaryActions ch s) =
    (if s.rowFresh .primary then [.c s.cfg.cmdRow1] else []) ++ [.d ch] := by
  simp only [putPrimaryActions, notesOf_append, notesOf_tData]
  split <;> simp [notesOf]

/-- The 37 byte-level events of `scroll_up`, in order (R85). -/
theorem notesOf_scrollUp : notesOf (scrollUpActions s) =
    [.c s.cfg.cmdBlinkOff, .c s.cfg.cmdRow1] ++
    (List.range 16).map (fun i => .d (s.cellByte (cellAddr .secondary i))) ++
    [.c s.cfg.cmdRow2] ++ List.replicate 16 (.d s.cfg.chSpace) ++ [.c s.cfg.cmdOnBlink, .c s.cfg.cmdRow2] := by
  simp [scrollUpActions, notesOf, List.map_eq_flatMap]
  rfl

/-- The byte-level events of `put_secondary` (R86). -/
theorem notesOf_putSecondary : notesOf (putSecondaryActions ch s) =
    (if s.rowFresh .secondary then [.c s.cfg.cmdRow2] else []) ++
    (if s.rowFull .secondary then notesOf (scrollUpActions s) else []) ++ [.d ch] := by
  simp only [putSecondaryActions, notesOf_append, notesOf_tData]
  split <;> split <;> simp [notesOf]

theorem expands_scrollUp : Expands s.cfg (scrollUpActions s) := by
  simp [Expands, scrollUpActions, tCmdActions, tDataActions, notesOf, pinsOf, List.flatMap_assoc]

theorem expands_wrch : Expands s.cfg (wrchActions ch s) := by
  unfold wrchActions
  split
  · rfl
  · simp [Expands]
  · split
    · exact ((((expands_tCmd s.cfg _).ite).append ((expands_scrollUp s).ite)).append rfl |>.append
        (expands_tData s.cfg ch)).append rfl
    · exact ((((expands_tCmd s.cfg _).ite).append rfl).append (expands_tData s.cfg ch)).append rfl

end lineBuffer

section writes
variable (s : State) (r : Row) (v : Byte)

/-- A cursor below 16 goes up by exactly one: it never wraps (R91). -/
theorem toNat_bump {c : Cursor} (h : c.toNat < 16) : (c + 1).toNat = c.toNat + 1 := by
  have h1 : (1 : Cursor).toNat = 1 := rfl
  rw [BitVec.toNat_add, h1]
  omega

/-- The pad loop from the row's cursor: `n` cells from there hold the pad byte, the cursor is `n` further, and no other
cell changes (R83). -/
theorem perform_padLoop (n : Nat) (s : State) (h : (s.cur r).toNat + n ≤ 16) :
    (∀ a, (perform ((List.range' (s.cur r).toNat n).flatMap fun i => [.store (cellAddr r i) v, .bump r]) s).cells.read a
      = if cellAddr r (s.cur r).toNat ≤ a ∧ a < cellAddr r ((s.cur r).toNat + n) then some v else s.cells.read a) ∧
    (∀ q, ((perform ((List.range' (s.cur r).toNat n).flatMap fun i => [.store (cellAddr r i) v, .bump r]) s).cur q).toNat
      = if q = r then (s.cur r).toNat + n else (s.cur q).toNat) := by
  induction n generalizing s with
  | zero => exact ⟨fun a => by simp, fun q => by simp; intro h; rw [h]⟩
  | succ n ih =>
    have hb : (s.cur r + 1).toNat = (s.cur r).toNat + 1 := toNat_bump (by omega)
    have h' := ih (State.setCur { s with cells := s.cells.write (cellAddr r (s.cur r).toNat) v } r (s.cur r + 1))
      (by rw [State.setCur_cur_same, hb]; omega)
    simp only [State.setCur_cur_same, State.setCur_cells, hb] at h'
    have hc : ∀ t : State, t.cur r = s.cur r → (Action.bump r).run t = t.setCur r (s.cur r + 1) := by
      intro t ht; simp [ht]
    simp only [List.range'_succ, List.flatMap_cons, List.cons_append, List.nil_append, perform_cons, Action.run_store]
    rw [hc _ (by cases r <;> rfl)]
    refine ⟨fun a => ?_, fun q => ?_⟩
    · rw [h'.1 a, Memory.read_write]
      have e (i : Nat) := cellAddr_eq r i
      rw [e (_ + n), e (_ + (n + 1)), e (_ + 1), e (s.cur r).toNat]
      split_ifs <;> first | rfl | (exfalso; omega)
    · rw [h'.2 q]
      split
      · omega
      · rw [State.setCur_cur _ _ _ _ ‹_›]; cases q <;> rfl

/-- Stores into the first `n` cells of the primary row, one after the other (R85). -/
theorem perform_copyLoop (n : Nat) (f : Nat → Byte) (s : State) (hn : n ≤ 16) :
    (∀ a, (perform ((List.range n).flatMap fun i => [.store (cellAddr .primary i) (f i)]) s).cells.read a =
      if a < n then some (f a) else s.cells.read a) ∧
    (∀ q, (perform ((List.range n).flatMap fun i => [.store (cellAddr .primary i) (f i)]) s).cur q = s.cur q) := by
  induction n with
  | zero => simp
  | succ n ih =>
    have ih := ih (by omega)
    simp only [List.range_succ, List.flatMap_append, List.flatMap_singleton, perform_append, perform_cons,
      Action.run_store, perform_nil]
    refine ⟨fun a => ?_, fun q => ?_⟩
    · rw [Memory.read_write, ih.1 a]
      rw [cellAddr_primary]
      by_cases ha : a = n
      · subst ha; simp
      · rw [if_neg ha]
        split_ifs <;> first | rfl | (exfalso; omega)
    · exact (by cases q <;> rfl : State.cur _ q = _).trans (ih.2 q)

@[simp] theorem writesOf_scrollUp : writesOf (scrollUpActions s) =
    ((List.range 16).flatMap fun i => [.store (cellAddr .primary i) (s.cellByte (cellAddr .secondary i))]) ++
    [.resetRow .secondary] := by
  simp [scrollUpActions, writesOf]

end writes

/-- Performing the lines of `WRSTR` is writing its characters one after the other (R89). -/
theorem perform_wrstrLines (cs : List Byte) (s : State) :
    perform (opActions.wrstrLines cs s) s = cs.foldl writeChar s := by
  induction cs generalizing s with
  | nil => rfl
  | cons c cs ih => simpa [opActions.wrstrLines, writeChar] using ih (writeChar s c)

/-- The meaning of every operation is to perform its lines, and it always answers a next state (R8, R100). -/
theorem exec_eq_perform (i : Instr) (s : State) : exec i s = .next (perform (opActions i s) s) := by
  cases i <;> first | rfl | simp only [exec, execWrstr, opActions, perform_wrstrLines]

/-- The blocks the lines of an operation are put together from, but for `quiesce`, which only `T.INIT` starts with
(R62 to R64): an induction over the blocks says something of every operation. -/
inductive Blocks (cfg : Config) : List Action → Prop
  | none : Blocks cfg []
  | xfer (t : Tag) (b : Byte) : Blocks cfg (xfer cfg t b)
  | settle (d : Duration) : Blocks cfg (settle cfg d)
  | store (a : Nat) (v : Byte) : Blocks cfg [.store a v]
  | bump (r : Row) : Blocks cfg [.bump r]
  | resetRow (r : Row) : Blocks cfg [.resetRow r]
  | append {as bs : List Action} : Blocks cfg as → Blocks cfg bs → Blocks cfg (as ++ bs)

namespace Blocks
variable {cfg : Config}

theorem flatMap {α : Type} {l : List α} {f : α → List Action} (h : ∀ x, Blocks cfg (f x)) :
    Blocks cfg (l.flatMap f) := by
  induction l with
  | nil => exact .none
  | cons x l ih => simpa only [List.flatMap_cons] using (h x).append ih

theorem ite {p : Prop} [Decidable p] {as : List Action} (h : Blocks cfg as) : Blocks cfg (if p then as else []) := by
  split
  · exact h
  · exact .none

theorem scrollUp (s : State) : Blocks s.cfg (scrollUpActions s) :=
  ((((((xfer .cmd _ |>.append (xfer .cmd _)).append (flatMap fun _ => (store _ _).append (xfer .data _))).append
    (xfer .cmd _)).append (flatMap fun _ => xfer .data _)).append (resetRow _)).append (xfer .cmd _)).append (xfer .cmd _)

theorem wrch (ch : Byte) (s : State) : Blocks s.cfg (wrchActions ch s) := by
  unfold wrchActions
  split
  · exact .none
  · exact flatMap fun _ => (store _ _).append (bump _)
  · split
    · exact ((((ite (xfer .cmd _)).append (ite (scrollUp s))).append (store _ _)).append (xfer .data _)).append (bump _)
    · exact (((ite (xfer .cmd _)).append (store _ _)).append (xfer .data _)).append (bump _)

theorem wrstr (cs : List Byte) (s : State) : Blocks s.cfg (opActions.wrstrLines cs s) := by
  induction cs generalizing s with
  | nil => exact .none
  | cons c cs ih =>
    have h := ih (writeChar s c)
    rw [show (writeChar s c).cfg = s.cfg from perform_cfg s _] at h
    exact (wrch c s).append h

end Blocks

/-- Steps 2 to 9 of the startup sequence (R67). -/
def tInitRest (cfg : Config) : List Action :=
  settle cfg .tPoweron ++ xfer cfg .cmd cfg.cmdFn2l ++ xfer cfg .cmd cfg.cmdEntry ++ xfer cfg .cmd cfg.cmdOnBlink ++
  xfer cfg .cmd cfg.cmdClear ++ settle cfg .tClear ++ xfer cfg .data cfg.chSpace ++ xfer cfg .cmd cfg.cmdRow1

theorem tInitActions_eq (cfg : Config) : tInitActions cfg = quiesce cfg ++ tInitRest cfg := by
  simp only [tInitActions, tInitRest, List.append_assoc]

theorem Blocks.tInitRest (cfg : Config) : Blocks cfg (tInitRest cfg) :=
  ((((((Blocks.settle _ |>.append (.xfer .cmd _)).append (.xfer .cmd _)).append (.xfer .cmd _)).append
    (.xfer .cmd _)).append (.settle _)).append (.xfer .data _)).append (.xfer .cmd _)

/-- The lines of every operation are blocks, after `quiesce` for `INIT` and `T.INIT`. -/
theorem opActions_blocks (i : Instr) (s : State) :
    (i ≠ .init ∧ i ≠ .tInit ∧ Blocks s.cfg (opActions i s)) ∨
    ((i = .init ∨ i = .tInit) ∧ ∃ as, opActions i s = quiesce s.cfg ++ as ∧ Blocks s.cfg as) := by
  cases i
  case init =>
    exact .inr ⟨.inl rfl, _, by rw [opActions, initActions, tInitActions_eq, List.append_assoc]; rfl,
      (Blocks.tInitRest s.cfg).append ((Blocks.resetRow .primary).append (.resetRow .secondary))⟩
  case tInit => exact .inr ⟨.inr rfl, _, tInitActions_eq s.cfg, Blocks.tInitRest s.cfg⟩
  case wrch c => exact .inl ⟨nofun, nofun, Blocks.wrch c s⟩
  case clrs =>
    exact .inl ⟨nofun, nofun, ((Blocks.xfer .cmd _).append (.settle _)).append
      ((Blocks.resetRow .primary).append (.resetRow .secondary))⟩
  case rsvd => exact .inl ⟨nofun, nofun, .none⟩
  case wrstr cs => exact .inl ⟨nofun, nofun, Blocks.wrstr cs s⟩
  case tCmd b => exact .inl ⟨nofun, nofun, .xfer .cmd b⟩
  case tData b => exact .inl ⟨nofun, nofun, .xfer .data b⟩
  case tClear => exact .inl ⟨nofun, nofun, (Blocks.xfer .cmd _).append (.settle _)⟩

end Sys2Proof.Machine
end

