-- ==== Sys2Proof/Laws/LineBuffer.lean ====
section
/-! SUPPORT. Everything a `WRCH` can do to row memory and the cursors, said once (spec/41_line_buffer.md R81 to R86). -/

namespace Sys2Proof.Machine

theorem State.rowFull_iff (s : State) (r : Row) : s.rowFull r = true ↔ 16 ≤ (s.cur r).toNat := by
  simp [State.rowFull, BitVec.le_def]

theorem State.rowFull_eq_false_iff (s : State) (r : Row) : s.rowFull r = false ↔ (s.cur r).toNat < 16 := by
  rw [← Bool.not_eq_true, State.rowFull_iff]; omega

theorem State.rowFresh_iff (s : State) (r : Row) : s.rowFresh r = true ↔ (s.cur r).toNat = 0 := by
  simp [State.rowFresh, ← BitVec.toNat_inj]

theorem State.rowFresh_eq_false_iff (s : State) (r : Row) : s.rowFresh r = false ↔ (s.cur r).toNat ≠ 0 := by
  rw [← Bool.not_eq_true, State.rowFresh_iff]

section lines
variable (s : State) (ch : Byte)

theorem wrchActions_carriageReturn (h : charClass s.cfg ch = .carriageReturn) : wrchActions ch s = [] := by
  simp [wrchActions, h]

theorem wrchActions_newline (h : charClass s.cfg ch = .newline) : wrchActions ch s = padActions s := by
  simp [wrchActions, h]

theorem wrchActions_primary (h : charClass s.cfg ch = .visible) (h0 : (s.cur0).toNat < 16) :
    wrchActions ch s = putPrimaryActions ch s := by
  simp [wrchActions, h, (s.rowFull_eq_false_iff .primary).2 h0]

theorem wrchActions_secondary (h : charClass s.cfg ch = .visible) (h0 : 16 ≤ (s.cur0).toNat) :
    wrchActions ch s = putSecondaryActions ch s := by
  simp [wrchActions, h, (s.rowFull_iff .primary).2 h0]

@[simp] theorem writesOf_pad : writesOf (padActions s) = padActions s := by
  simp [padActions, writesOf]

@[simp] theorem writesOf_putPrimary : writesOf (putPrimaryActions ch s) =
    [.store (cellAddr .primary s.cur0.toNat) ch, .bump .primary] := by
  simp only [putPrimaryActions, writesOf_append, writesOf_tData]
  split <;> simp [writesOf]

theorem writesOf_putSecondary (h1 : s.cur1.toNat < 16) : writesOf (putSecondaryActions ch s) =
    [.store (cellAddr .secondary s.cur1.toNat) ch, .bump .secondary] := by
  have hf := (s.rowFull_eq_false_iff .secondary).2 h1
  simp only [putSecondaryActions, secondarySlot, hf, writesOf_append, writesOf_tData]
  split <;> simp [writesOf]

theorem writesOf_putSecondary_scroll (h1 : 16 ≤ s.cur1.toNat) : writesOf (putSecondaryActions ch s) =
    ((List.range 16).flatMap fun i => [.store (cellAddr .primary i) (s.cellByte (cellAddr .secondary i))]) ++
    [.resetRow .secondary, .store (cellAddr .secondary 0) ch, .bump .secondary] := by
  have hf := (s.rowFull_iff .secondary).2 h1
  simp only [putSecondaryActions, secondarySlot, hf, writesOf_append, writesOf_tData]
  split <;> simp [writesOf]

end lines

/-- What a `WRCH` does to row memory and the cursors (R82 to R86), in every state. -/
inductive WrchEffect (s : State) (ch : Byte) (t : State) : Prop
  /-- R82. -/
  | inert (hc : charClass s.cfg ch = .carriageReturn) (h : t = s)
  /-- R83, on a row whose cursor is beyond 16, in no reachable state. -/
  | padNothing (hc : charClass s.cfg ch = .newline) (hr : 16 < (s.cur s.workingRow).toNat) (h : t = s)
  /-- R83. -/
  | pad (hc : charClass s.cfg ch = .newline) (hr : (s.cur s.workingRow).toNat ≤ 16)
      (cells : ∀ a, t.cells.read a =
        if cellAddr s.workingRow (s.cur s.workingRow).toNat ≤ a ∧ a < cellAddr s.workingRow 16
        then some s.cfg.chSpace else s.cells.read a)
      (cur : ∀ q, (t.cur q).toNat = if q = s.workingRow then 16 else (s.cur q).toNat)
  /-- R84. -/
  | primary (hc : charClass s.cfg ch = .visible) (h0 : s.cur0.toNat < 16)
      (cells : t.cells = s.cells.write (cellAddr .primary s.cur0.toNat) ch)
      (cur0 : t.cur0.toNat = s.cur0.toNat + 1) (cur1 : t.cur1 = s.cur1)
  /-- R86 with room in the secondary row. -/
  | secondary (hc : charClass s.cfg ch = .visible) (h0 : 16 ≤ s.cur0.toNat) (h1 : s.cur1.toNat < 16)
      (cells : t.cells = s.cells.write (cellAddr .secondary s.cur1.toNat) ch)
      (cur0 : t.cur0 = s.cur0) (cur1 : t.cur1.toNat = s.cur1.toNat + 1)
  /-- R85, R86. -/
  | scroll (hc : charClass s.cfg ch = .visible) (h0 : 16 ≤ s.cur0.toNat) (h1 : 16 ≤ s.cur1.toNat)
      (cells : ∀ a, t.cells.read a =
        if a = cellAddr .secondary 0 then some ch
        else if inRow .secondary a then none
        else if a < 16 then some (s.cellByte (cellAddr .secondary a)) else s.cells.read a)
      (cur0 : t.cur0 = s.cur0) (cur1 : t.cur1 = 1)

theorem writeChar_effect (s : State) (ch : Byte) : WrchEffect s ch (writeChar s ch) := by
  unfold writeChar
  cases hc : charClass s.cfg ch with
  | carriageReturn => exact .inert hc (by rw [wrchActions_carriageReturn s ch hc, perform_nil])
  | newline =>
    rw [wrchActions_newline s ch hc]
    by_cases hr : (s.cur s.workingRow).toNat ≤ 16
    · have h := perform_padLoop s.workingRow s.cfg.chSpace (16 - (s.cur s.workingRow).toNat) s (by omega)
      rw [Nat.add_sub_cancel' hr] at h
      exact .pad hc hr h.1 h.2
    · refine .padNothing hc (by omega) ?_
      rw [padActions, Nat.sub_eq_zero_of_le (by omega)]
      rfl
  | visible =>
    by_cases h0 : s.cur0.toNat < 16
    · rw [wrchActions_primary s ch hc h0]
      refine .primary hc h0 ?_ ?_ ?_
      · rw [perform_cells]; simp
      · rw [perform_cur0]; simpa using toNat_bump h0
      · rw [perform_cur1]; simp
    · rw [wrchActions_secondary s ch hc (by omega)]
      by_cases h1 : s.cur1.toNat < 16
      · refine .secondary hc (by omega) h1 ?_ ?_ ?_
        · rw [perform_cells, writesOf_putSecondary s ch h1]; simp
        · rw [perform_cur0, writesOf_putSecondary s ch h1]; simp
        · rw [perform_cur1, writesOf_putSecondary s ch h1]; simpa using toNat_bump h1
      · have h1 : 16 ≤ s.cur1.toNat := by omega
        have hL := perform_copyLoop 16 (fun i => s.cellByte (cellAddr .secondary i)) s (Nat.le_refl 16)
        refine .scroll hc (by omega) h1 (fun a => ?_) ?_ ?_
        · rw [perform_cells, writesOf_putSecondary_scroll s ch h1, perform_append]
          simp only [perform_cons, perform_nil, Action.run_store, Action.run_resetRow, Action.run_bump,
            State.setCur_cells]
          rw [Memory.read_write, Memory.read_dropRow, hL.1 a]
        · rw [perform_cur0, writesOf_putSecondary_scroll s ch h1, perform_append]
          exact hL.2 .primary
        · rw [perform_cur1, writesOf_putSecondary_scroll s ch h1, perform_append]
          rfl

end Sys2Proof.Machine
end

