-- ==== Sys2Proof/Laws/Sequencer.lean ====
section
/-! SUPPORT. Everything a tick of a busy core can do: it takes the operation in progress nearer to its end without
changing where that end is, and it counts one pin event off. -/

namespace Sys2Proof.Machine

/-- Performing lines is letting each take effect in order. -/
theorem perform_eq_foldl (as : List Action) (s : State) : perform as s = as.foldl (fun u a => a.run u) s := by
  induction as generalizing s with
  | nil => rfl
  | cons a as ih => exact ih (a.run s)

/-- The lines do not depend on `busy` or on what else the sequencer holds, and leave both as they are. -/
theorem perform_seq_busy (as q : List Action) (b : Bool) (s : State) :
    perform as { s with seq := q, busy := b } = { perform as s with seq := q, busy := b } := by
  simpa using perform_frame s as b q s.script

/-- Running the leading writes: what is left begins with a pin event or is empty, no pin event is used up, and
performing what is left comes to the same state as performing all. -/
theorem runWrites_spec (as : List Action) (s : State) :
    perform (runWrites as s).1 (runWrites as s).2 = perform as s ∧
    (runWrites as s).1.countP Action.isPin = as.countP Action.isPin ∧
    ((runWrites as s).1 = [] ∨ ∃ a rest, (runWrites as s).1 = a :: rest ∧ a.isPin = true) := by
  induction as generalizing s with
  | nil => simp [runWrites]
  | cons a as ih =>
    unfold runWrites
    split
    · exact ⟨rfl, rfl, .inr ⟨a, as, rfl, ‹_›⟩⟩
    · obtain ⟨hstate, hcount, hhead⟩ := ih (a.run s)
      exact ⟨hstate, hcount.trans (List.countP_cons_of_neg ‹_›).symm, hhead⟩

/-- A tick of a busy core leaves the state its operation ends in as it was (R18, R133). -/
theorem finish_advance (s : State) : finish (advance s) = finish s := by
  have h := (runWrites_spec s.seq s).1
  unfold advance
  split <;> rename_i heq <;> rw [heq] at h
  · simp only [finish, perform_nil] at h ⊢
    rw [← h]
  · simp only [finish]
    rw [perform_seq_busy, (runWrites_spec _ _).1, ← perform_cons, h]

/-- A tick of a busy core counts one pin event off, and `busy` falls with the last (R18, R58). -/
theorem advance_count (s : State) :
    (advance s).seq.countP Action.isPin = s.seq.countP Action.isPin - 1 ∧
    (advance s).busy = decide (1 < s.seq.countP Action.isPin) := by
  obtain ⟨-, hcount, hhead⟩ := runWrites_spec s.seq s
  unfold advance
  split
  · rename_i heq
    rw [heq] at hcount
    simp [← hcount]
  · rename_i a rest t heq
    rw [heq] at hcount hhead
    have ha : a.isPin = true := by simpa using hhead
    obtain ⟨-, hrest, hnext⟩ := runWrites_spec rest (a.run t)
    rw [← hcount, List.countP_cons_of_pos ha]
    refine ⟨by simp [hrest], ?_⟩
    rcases hnext with h | ⟨b, r, h, hb⟩ <;> rw [h] at hrest
    · simp [h, ← hrest]
    · rw [List.countP_cons_of_pos hb] at hrest
      simp [h, ← hrest]

end Sys2Proof.Machine
end

