-- ==== Sys2Proof/Tests/Slice0.lean ====
section
/-! SUPPORT. The model's own tests. Expected values are those of spec/95_test_vectors.md (the vector is named at each
test) or are written out from the encodings of spec/30_encoding.md. Witnesses of the statements' hypotheses stand at
the end. -/

namespace Sys2Proof.Tests
open Sys2Proof Sys2Proof.Machine

/-! ## Well-formedness: an ill-formed term for each check -/

theorem test_transport_operation_refused_on_host_port : (Instr.tCmd 0x38#8).wfOn .host = false := by decide
theorem test_host_operation_refused_on_request_interface : (Instr.wrch 0x41#8).wfOn .transport = false := by decide
theorem test_transport_operation_refused_in_program : Program.wf [.init, .tData 0x41#8] = false := by decide
theorem test_boot_without_init_refused : Program.boots [.wrch 0x41#8] = false := by decide
theorem test_boot_with_second_init_refused : Program.boots [.init, .clrs, .init] = false := by decide
theorem test_equal_newline_and_return_refused :
    ({ Config.suggested with chNl := 0x0D#8 } : Config).wf = false := by decide
theorem test_boot_program_accepted :
    Program.boots [.init, .wrstr [0x48#8, 0x69#8]] = true ∧ Program.wf [.init, .wrstr [0x48#8, 0x69#8]] = true := by
  decide

/-! ## Decoding: each operation's word written out bit by bit, op bits first (R47, R48) -/

theorem test_decode_init : decode .host 0b0000000000#10 = .init := by decide
theorem test_decode_init_ignores_operand : decode .host 0b0010101011#10 = .init := by decide
theorem test_decode_wrch : decode .host 0b0101000001#10 = .wrch 0x41#8 := by decide
theorem test_decode_wrch_all_ones : decode .host 0b0111111111#10 = .wrch 0xFF#8 := by decide
theorem test_decode_clrs : decode .host 0b1011000011#10 = .clrs := by decide
theorem test_decode_rsvd : decode .host 0b1100000001#10 = .rsvd := by decide
theorem test_decode_tInit : decode .transport 0b0000000000#10 = .tInit := by decide
theorem test_decode_tCmd : decode .transport 0b0100111000#10 = .tCmd 0x38#8 := by decide
theorem test_decode_tData : decode .transport 0b1001000001#10 = .tData 0x41#8 := by decide
theorem test_decode_tClear : decode .transport 0b1111111111#10 = .tClear := by decide
/-- P1: `WRSTR "Hi"` is the words 0x148 0x169. -/
theorem test_encode_wrstr : encode (.wrstr [0x48#8, 0x69#8]) = [⟨.host, 0x148#10⟩, ⟨.host, 0x169#10⟩] := by decide
theorem test_table_word_wider_than_ten_bits : decodeTableWord 16 0x400 = none := by decide
theorem test_table_word_wrch : decodeTableWord 16 0x10A = some (.wrch 0x0A#8) := by decide
/-- P3: the string "AB\nCD". -/
theorem test_quoted_newline :
    quotedBytes Config.suggested ['A', 'B', '\\', 'n', 'C', 'D'] = [0x41#8, 0x42#8, 0x0A#8, 0x43#8, 0x44#8] := by decide

/-! ## Operations -/

/-- The state an operation leads to. -/
def after (i : Instr) (s : State) : State :=
  match exec i s with
  | .next t => t
  | .fault _ => s
  | .refused _ => s

/-- A state with the suggested parameters, cursors `c0`, `c1` and the cells below them holding 'A', 'B', ... in the
primary row and 'a', 'b', ... in the secondary. -/
def rowsAt (c0 c1 : Cursor) : State :=
  { State.reset with
    cur0 := c0
    cur1 := c1
    cells := ((List.range c0.toNat).map fun i => (i, BitVec.ofNat 8 (0x41 + i))) ++
      ((List.range c1.toNat).map fun i => (16 + i, BitVec.ofNat 8 (0x61 + i))) }

/-- The same state with the flags `MIRROR` and `WDT_EN`. -/
def withFlags (s : State) (mirror wdt : Bool) : State :=
  { s with cfg := { s.cfg with mirror := mirror, wdtEn := wdt } }

/-- M, the table of the transform. -/
theorem test_mirror8 : [0x01#8, 0x38#8, 0x06#8, 0x0F#8, 0x0C#8, 0xC0#8, 0x41#8, 0x48#8, 0xA5#8].map mirror8 =
    [0x80#8, 0x1C#8, 0x60#8, 0xF0#8, 0x30#8, 0x03#8, 0x82#8, 0x12#8, 0xA5#8] := by decide

/-- T2. -/
theorem test_tCmd_mirrored : (after (.tCmd 0x01#8) (withFlags State.reset true false)).pinTrace =
    [.setRW false, .setRS false, .setDB 0x80#8, .setE true, .wait .tEn, .setE false] := by decide
/-- T3, with its frame 0x241. -/
theorem test_tData : (after (.tData 0x41#8) State.reset).pinTrace =
    [.setRW false, .setRS true, .setDB 0x41#8, .setE true, .wait .tEn, .setE false] ∧
    busFrame Config.suggested .data 0x41#8 = 0x241#10 := by decide
/-- T7. -/
theorem test_tInit_watchdog : (after .tInit (withFlags State.reset false true)).trace =
    [.q, .k, .w .tPoweron, .k, .c 0x38#8, .c 0x06#8, .c 0x0F#8, .c 0x01#8, .k, .w .tClear, .k, .d 0x20#8,
      .c 0x80#8] := by decide
/-- T6: the seven values put on the bus with MIRROR true, and 43 pin events. -/
theorem test_tInit_mirrored : ((after .tInit (withFlags State.reset true false)).pinTrace.filterMap fun ev =>
      match ev with | .setDB b => some b | _ => none) =
      [0x00#8, 0x1C#8, 0x60#8, 0xF0#8, 0x80#8, 0x04#8, 0x01#8] ∧
    (after .tInit (withFlags State.reset true false)).pinTrace.length = 43 := by decide
/-- T8. -/
theorem test_tClear : (after .tClear State.reset).pinTrace =
    [.setRW false, .setRS false, .setDB 0x01#8, .setE true, .wait .tEn, .setE false, .wait .tClear] := by decide
/-- H2: `INIT` from cursors (16, 9). -/
theorem test_init : ((after .init (rowsAt 16 9)).cur0, (after .init (rowsAt 16 9)).cur1,
    (after .init (rowsAt 16 9)).cells, (after .init (rowsAt 16 9)).pins.db) = (0, 0, [], 0x80#8) := by decide
/-- H5. -/
theorem test_clrs : ((after .clrs (rowsAt 16 16)).cur0, (after .clrs (rowsAt 16 16)).cur1,
    (after .clrs (rowsAt 16 16)).trace) = (0, 0, [.c 0x01#8, .w .tClear]) := by decide
/-- W1. -/
theorem test_wrch_first_character : ((after (.wrch 0x48#8) State.reset).trace,
    (after (.wrch 0x48#8) State.reset).cells, (after (.wrch 0x48#8) State.reset).cur0) =
    ([.c 0x80#8, .d 0x48#8], [(0, 0x48#8)], 1) := by decide
/-- W7, S3: the scroll's 38 events, and what it leaves. -/
theorem test_wrch_scroll : (after (.wrch 0x21#8) (rowsAt 16 16)).trace.length = 38 ∧
    (after (.wrch 0x21#8) (rowsAt 16 16)).cells =
      ((List.range 16).map fun i => (i, BitVec.ofNat 8 (0x61 + i))) ++ [(16, 0x21#8)] ∧
    (after (.wrch 0x21#8) (rowsAt 16 16)).cur1 = 1 := by decide
/-- V-NL-1 and V-NL-7. -/
theorem test_wrch_newline : (after (.wrch 0x0A#8) (rowsAt 2 0)).cells =
      [(0, 0x41#8), (1, 0x42#8)] ++ ((List.range 14).map fun i => (2 + i, 0x20#8)) ∧
    (after (.wrch 0x0A#8) (rowsAt 2 0)).trace = [] ∧ (after (.wrch 0x0A#8) (rowsAt 15 0)).cur1 = 0 := by decide
/-- S5. -/
theorem test_wrch_carriage_return : after (.wrch 0x0D#8) (rowsAt 3 0) = rowsAt 3 0 := by decide
/-- H7. -/
theorem test_wrstr : (after (.wrstr [0x48#8, 0x69#8]) State.reset).trace = [.c 0x80#8, .d 0x48#8, .d 0x69#8] := by
  decide
/-- H8. -/
theorem test_rsvd : after .rsvd (rowsAt 16 5) = rowsAt 16 5 := by decide

/-- A word presented after reset is run by the next step (H9: `WRCH` before `INIT` leaves `OE` 0). -/
theorem test_step_runs_fetch_word : step (State.reset.withFetchWord 16 0x141) =
    .next (after (.wrch 0x41#8) State.reset) ∧ (after (.wrch 0x41#8) State.reset).pins.oe = false :=
  ⟨rfl, by decide⟩

/-! ## Witnesses: every hypothesis of a statement is met -/

theorem witness_config_wf : Config.suggested.wf = true := by decide
theorem witness_word_presented : (State.reset.withFetchWord 16 0x141).busy = false ∧
    (State.reset.withFetchWord 16 0x141).script = ⟨.host, 0x141#10⟩ :: [] ∧ 0x141 < 2 ^ 10 := by decide
theorem witness_op_bits : 0x0FF#10 &&& 0x300#10 = 0x000#10 ∧ 0x1FF#10 &&& 0x300#10 = 0x100#10 ∧
    0x2FF#10 &&& 0x300#10 = 0x200#10 ∧ 0x3FF#10 &&& 0x300#10 = 0x300#10 := by decide
theorem witness_mirror_flag : (withFlags State.reset true false).cfg.mirror = true ∧
    State.reset.cfg.mirror = false := by decide
theorem witness_output_enable : (after .tInit State.reset).pins.oe = true ∧ State.reset.pins.oe = false := by decide
theorem witness_mirror_clear : ∃ t, exec (.wrch 0x41#8) { State.reset with cfg := { State.reset.cfg with mirror := false } } =
    .next t := ⟨_, rfl⟩
theorem witness_idle_state : State.reset.busy = false ∧ State.reset.seq = [] ∧ State.reset.script = [] := by decide
theorem witness_busy_state : (accept .clrs State.reset).busy = true := by decide
/-- Two states an `INIT` may find, of one instance: the one of H2, and the one after reset. -/
theorem witness_two_states_of_one_instance : (rowsAt 16 9).cfg = State.reset.cfg ∧ rowsAt 16 9 ≠ State.reset ∧
    ∃ t u, exec .init (rowsAt 16 9) = .next t ∧ exec .init t = .next u := ⟨by decide, by decide, _, _, rfl, rfl⟩
theorem witness_command_or_data : Instr.tCmd 0x38#8 = .tCmd 0x38#8 ∨ Instr.tCmd 0x38#8 = .tData 0x38#8 := by decide
theorem witness_transport_operation : Instr.tClear.iface = .transport := by decide
/-- For the statements whose only hypothesis is that an operation completes, with any flag value. -/
theorem witness_operation_completes : ∃ t, exec (.wrch 0x48#8) State.reset = .next t := ⟨_, rfl⟩
theorem witness_last_transfer : ∃ t, exec (.tCmd 0x01#8) State.reset = .next t ∧
    t.trace = State.reset.trace ++ ([] ++ transferEvent .cmd 0x01#8 :: []) ∧
    ∀ ev ∈ ([] : List ByteEvent), eventFrame State.reset.cfg ev = none := ⟨_, rfl, by decide, by decide⟩

theorem cursorsOk_rowsAt (c0 c1 : Cursor) (h : c0.toNat ≤ 16 ∧ c1.toNat ≤ 16 ∧ (0 < c1.toNat → c0.toNat = 16)) :
    (rowsAt c0 c1).CursorsOk := ⟨h.1, h.2.1, h.2.2⟩
theorem witness_newline_first_column : (rowsAt 0 0).cfg.wf = true ∧ (rowsAt 0 0).CursorsOk :=
  ⟨by decide, cursorsOk_rowsAt 0 0 (by decide)⟩
theorem witness_newline_full_display : (rowsAt 16 16).cfg.wf = true ∧ (rowsAt 16 16).CursorsOk :=
  ⟨by decide, cursorsOk_rowsAt 16 16 (by decide)⟩
theorem witness_primary_row : charClass (rowsAt 0 0).cfg 0x48#8 = .visible ∧ (rowsAt 0 0).cur0.toNat < 16 ∧
    charClass (rowsAt 15 0).cfg 0xFF#8 = .visible ∧ (rowsAt 15 0).cur0.toNat < 16 := by decide
theorem witness_secondary_row : charClass (rowsAt 16 0).cfg 0x00#8 = .visible ∧ 16 ≤ (rowsAt 16 0).cur0.toNat ∧
    (rowsAt 16 0).cur1.toNat < 16 ∧ 16 ≤ (rowsAt 16 15).cur0.toNat ∧ (rowsAt 16 15).cur1.toNat < 16 := by decide
theorem witness_full_display : charClass (rowsAt 16 16).cfg 0x21#8 = .visible ∧ 16 ≤ (rowsAt 16 16).cur0.toNat ∧
    16 ≤ (rowsAt 16 16).cur1.toNat ∧
    ∀ i < 16, (rowsAt 16 16).cells.read (cellAddr .secondary i) = some (BitVec.ofNat 8 (0x61 + i)) := by decide
theorem witness_fresh_primary_row : ([0x48#8] : List Byte) ≠ [] ∧ ([0x48#8] : List Byte).length ≤ 16 ∧
    (∀ ch ∈ ([0x48#8] : List Byte), charClass (rowsAt 0 0).cfg ch = .visible) ∧
    (rowsAt 0 0).cur (rowsAt 0 0).workingRow = 0 := by decide
theorem witness_fresh_secondary_row : List.replicate 16 0x48#8 ≠ [] ∧ (List.replicate 16 0x48#8).length ≤ 16 ∧
    (∀ ch ∈ List.replicate 16 0x48#8, charClass (rowsAt 16 0).cfg ch = .visible) ∧
    (rowsAt 16 0).cur (rowsAt 16 0).workingRow = 0 := by decide
theorem witness_full_primary : Instr.wrch 0x48#8 ≠ .init ∧ Instr.wrch 0x48#8 ≠ .clrs ∧
    (rowsAt 16 0).cur0.toNat = 16 ∧ ∃ t, exec (.wrch 0x48#8) (rowsAt 16 0) = .next t :=
  ⟨by decide, by decide, by decide, _, rfl⟩

/-- An operation from a state, with what it appends to the byte-level trace: for the clauses of the event counts and
of the least durations. -/
theorem witness_appended (i : Instr) (s : State) (h : s.trace = [] ∧ s.pinTrace = []) :
    ∃ t evs pevs, exec i s = .next t ∧ t.trace = s.trace ++ evs ∧ t.pinTrace = s.pinTrace ++ pevs := by
  rw [h.1, h.2]
  cases i <;> exact ⟨_, _, _, rfl, (List.nil_append _).symm, (List.nil_append _).symm⟩
theorem witness_counts_init : ∃ t evs pevs, exec .init (rowsAt 16 9) = .next t ∧
    t.trace = (rowsAt 16 9).trace ++ evs ∧ t.pinTrace = (rowsAt 16 9).pinTrace ++ pevs :=
  witness_appended _ _ (by decide)
theorem witness_counts_clrs : ∃ t evs pevs, exec .clrs (rowsAt 0 0) = .next t ∧
    t.trace = (rowsAt 0 0).trace ++ evs ∧ t.pinTrace = (rowsAt 0 0).pinTrace ++ pevs :=
  witness_appended _ _ (by decide)
theorem witness_counts_rsvd : ∃ t evs pevs, exec .rsvd (rowsAt 1 0) = .next t ∧
    t.trace = (rowsAt 1 0).trace ++ evs ∧ t.pinTrace = (rowsAt 1 0).pinTrace ++ pevs :=
  witness_appended _ _ (by decide)
theorem witness_counts_not_visible : charClass (rowsAt 2 0).cfg 0x0A#8 ≠ .visible ∧
    charClass (rowsAt 2 0).cfg 0x0D#8 ≠ .visible := by decide
/-- The boundary cursors of the clauses on visible characters. -/
theorem witness_counts_visible_clauses : charClass (rowsAt 0 0).cfg 0x41#8 = .visible ∧
    (rowsAt 0 0).cur0.toNat = 0 ∧ (0 < (rowsAt 1 0).cur0.toNat ∧ (rowsAt 15 0).cur0.toNat < 16) ∧
    ((rowsAt 16 0).cur0.toNat = 16 ∧ (rowsAt 16 0).cur1.toNat = 0) ∧
    ((rowsAt 16 1).cur0.toNat = 16 ∧ 0 < (rowsAt 16 1).cur1.toNat ∧ (rowsAt 16 15).cur1.toNat < 16) ∧
    ((rowsAt 16 16).cur0.toNat = 16 ∧ (rowsAt 16 16).cur1.toNat = 16) := by decide
theorem witness_durations_working_row : (rowsAt 16 0).cur (rowsAt 16 0).workingRow = 0 ∧
    0 < ((rowsAt 1 0).cur (rowsAt 1 0).workingRow).toNat ∧ ((rowsAt 15 0).cur (rowsAt 15 0).workingRow).toNat < 16 ∧
    16 ≤ ((rowsAt 16 16).cur (rowsAt 16 16).workingRow).toNat := by decide

/-- A state of the middle of a run that meets the invariant: one character written before `INIT`, a word presented. -/
theorem witness_invariant : ∃ s t : State, s.Inv ∧ s.busy = false ∧ s.script ≠ [] ∧ step s = .next t :=
  ⟨{ after (.wrch 0x48#8) State.reset with script := [⟨.host, 0x10A#10⟩] }, _,
   { cursors := ⟨by decide, by decide, by decide⟩
     cells := ⟨by decide, by
       intro r i hi
       have h : ∀ i < 16, (((after (.wrch 0x48#8) State.reset).cells.read (cellAddr .primary i)).isSome = true ↔
           i < ((after (.wrch 0x48#8) State.reset).cur .primary).toNat) ∧
         (((after (.wrch 0x48#8) State.reset).cells.read (cellAddr .secondary i)).isSome = true ↔
           i < ((after (.wrch 0x48#8) State.reset).cur .secondary).toNat) := by decide
       cases r
       · exact (h i hi).1
       · exact (h i hi).2⟩
     rest := ⟨by decide, by decide⟩
     traces := ⟨by decide, by decide⟩
     idle := ⟨by decide, by decide⟩ }, by decide, by decide, rfl⟩

/-- Two states that differ in a stale cell only. -/
theorem witness_stale_cell : (rowsAt 2 0).AgreeOnValid { rowsAt 2 0 with cells := (rowsAt 2 0).cells.write 7 0x5A#8 } ∧
    (rowsAt 2 0).cells ≠ (rowsAt 2 0).cells.write 7 0x5A#8 := by
  refine ⟨⟨rfl, ?_⟩, by decide⟩
  have h : ∀ i < 16, (i < ((rowsAt 2 0).cur .primary).toNat → (rowsAt 2 0).cells.read (cellAddr .primary i) =
        ((rowsAt 2 0).cells.write 7 0x5A#8).read (cellAddr .primary i)) ∧
      (i < ((rowsAt 2 0).cur .secondary).toNat → (rowsAt 2 0).cells.read (cellAddr .secondary i) =
        ((rowsAt 2 0).cells.write 7 0x5A#8).read (cellAddr .secondary i)) := by decide
  intro r i hi
  cases r
  · exact (h i hi).1
  · exact (h i hi).2

/-- Port inputs: reset not asserted, the word `w` valid or not. -/
def portIn (valid : Level) (w : PortWord) : PortIn := ⟨true, valid, w.extractLsb' 8 2, operandByte w⟩

/-- The operation in progress before its last tick, and one with no event right after its acceptance. -/
theorem witness_operation_in_progress : State.reset.busy = false ∧ State.reset.seq = [] ∧
    (∀ q ∈ List.replicate 11 (portIn true 0x200#10), q.rstN = true) ∧
    (List.replicate 11 (portIn true 0x200#10)).length < busyTicks (opActions (.wrch 0x48#8) State.reset) ∧
    ([] : List PortIn).length < busyTicks (opActions .rsvd State.reset) := by decide
theorem witness_watchdog_clear : ∃ t, exec .clrs (withFlags State.reset false true) = .next t ∧
    ∃ u, exec .clrs (withFlags State.reset false false) = .next u := ⟨_, rfl, _, rfl⟩
theorem witness_reset_asserted : ({ portIn true 0x141#10 with rstN := false } : PortIn).rstN = false := by decide
theorem witness_character_before_init : charClass Config.suggested 0x41#8 = .visible := by decide
theorem witness_idle_port : State.reset.busy = false ∧ (portIn false 0x141#10).rstN = true ∧
    (portIn false 0x141#10).cmdValid = false := by decide
/-- `WRCH 'H'` on the port: 12 pin events, so 12 busy ticks, with other words presented in vain. -/
theorem witness_port_operation : State.reset.busy = false ∧ State.reset.seq = [] ∧ (portIn true 0x148#10).rstN = true ∧
    (portIn true 0x148#10).cmdValid = true ∧ (∀ q ∈ List.replicate 12 (portIn true 0x200#10), q.rstN = true) ∧
    (List.replicate 12 (portIn true 0x200#10)).length =
      busyTicks (opActions (decode .host (portIn true 0x148#10).hostWord) State.reset) ∧
    ∃ t, exec (decode .host (portIn true 0x148#10).hostWord) State.reset = .next t :=
  ⟨by decide, by decide, by decide, by decide, by decide, by decide, _, rfl⟩
/-- An operation with no event: one busy tick. -/
theorem witness_port_operation_without_event : (List.replicate 1 (portIn false 0x000#10)).length =
    busyTicks (opActions (decode .host (portIn true 0x300#10).hostWord) State.reset) := by decide

end Sys2Proof.Tests
end

namespace Sys2Proof.Machine

/-! SUPPORT. Driven and undriven lines, what an operation does to the pin registers, and the state `INIT` ends in
(spec/10_state.md R16, R23). -/

section outputs
variable {s : State}

/-- While `OE` = 1 every line carries its pin register (R16). -/
theorem State.outputs_of_driven (h : s.pins.oe = true) :
    s.outputs.lcdRs = some s.pins.rs ∧ s.outputs.lcdRw = some s.pins.rw ∧
    s.outputs.lcdE = some s.pins.e ∧ s.outputs.lcdDb = some s.pins.db := by
  simp [State.outputs, h]

/-- While `OE` = 0 no line is driven (R16). -/
theorem State.outputs_of_not_driven (h : s.pins.oe = false) :
    s.outputs.lcdRs = none ∧ s.outputs.lcdRw = none ∧ s.outputs.lcdE = none ∧ s.outputs.lcdDb = none := by
  simp [State.outputs, h]

/-- A row with cursor 0 has no valid cell (R12). -/
theorem State.cellValid_of_cur_zero {r : Row} (h : s.cur r = 0) (i : Nat) : s.cellValid r i = false := by
  simp [State.cellValid, h]

end outputs

section pins
variable {cfg : Config} {as : List Action} (p : Pins)

/-- Only `quiesce` writes `OE`: no other block of an operation's lines does (R62 to R64). -/
theorem Blocks.oe_kept (h : Blocks cfg as) : ((pinsOf as).foldl Pins.apply p).oe = p.oe := by
  induction h generalizing p with
  | none => rfl
  | xfer t b => rw [pinsOf_xfer, foldl_expand_transfer]
  | settle d => cases hw : cfg.wdtEn <;> simp [hw, expand]
  | store a v => rfl
  | bump r => rfl
  | resetRow r => rfl
  | append _ _ iha ihb => rw [pinsOf_append, List.foldl_append, ihb, iha]

/-- Lines that begin with `quiesce` leave `OE` set (R64). -/
theorem Blocks.oe_set_by_quiesce (h : Blocks cfg as) :
    ((pinsOf (quiesce cfg ++ as)).foldl Pins.apply p).oe = true := by
  rw [pinsOf_append, List.foldl_append, h.oe_kept]
  rfl

/-- Lines that end with a transfer leave its frame on the pins (R62, R72). -/
theorem foldl_pinsOf_append_xfer (cfg : Config) (as : List Action) (t : Tag) (b : Byte) :
    (pinsOf (as ++ xfer cfg t b)).foldl Pins.apply p =
      { oe := ((pinsOf as).foldl Pins.apply p).oe, rs := tagLevel cfg t, rw := cfg.rwWrite, e := cfg.eOff
        db := busByte cfg b } := by
  rw [pinsOf_append, List.foldl_append, pinsOf_xfer, foldl_expand_transfer]

/-- The pins after the nine steps, whatever they held before (R67). -/
theorem foldl_pinsOf_tInit (cfg : Config) : (pinsOf (tInitActions cfg)).foldl Pins.apply p =
    { oe := true, rs := cfg.rsCmd, rw := cfg.rwWrite, e := cfg.eOff, db := busByte cfg cfg.cmdRow1 } := by
  have hoe : ((pinsOf (tInitActions cfg)).foldl Pins.apply p).oe = true := by
    rw [tInitActions_eq]
    exact (Blocks.tInitRest cfg).oe_set_by_quiesce p
  rw [tInitActions, foldl_pinsOf_append_xfer] at hoe ⊢
  dsimp only at hoe
  rw [hoe]
  rfl

end pins

/-- What an operation does to `OE`: set by `INIT` and `T.INIT`, left alone by every other operation (R16). -/
theorem perform_opActions_oe (i : Instr) (s : State) :
    (perform (opActions i s) s).pins.oe = (s.pins.oe || decide (i = .init ∨ i = .tInit)) := by
  rw [perform_pins]
  obtain ⟨hinit, htInit, hblocks⟩ | ⟨hi, as, has, hblocks⟩ := opActions_blocks i s
  · rw [hblocks.oe_kept]
    simp [hinit, htInit]
  · rw [has, hblocks.oe_set_by_quiesce]
    simp [hi]

section init
variable (s : State)

/-- The pins after `INIT`, whatever they held before (R87). -/
theorem perform_init_pins : (perform (initActions s) s).pins =
    { oe := true, rs := s.cfg.rsCmd, rw := s.cfg.rwWrite, e := s.cfg.eOff, db := busByte s.cfg s.cfg.cmdRow1 } := by
  rw [initActions, perform_append, perform_pins, perform_pins, foldl_pinsOf_tInit]
  rfl

/-- Both cursors are 0 after `INIT`, whatever they were before (R87). -/
theorem perform_init_cur (r : Row) : (perform (initActions s) s).cur r = 0 := by
  rw [initActions, perform_append]
  cases r <;> rfl

end init

/-- Settles O24: an operation's lines write `OE` in `quiesce` alone, and only `INIT` and `T.INIT` begin with it. -/
theorem outputEnableIsSetByInit : Obligations.OutputEnableIsSetByInit := by
  refine ⟨fun s => State.outputs_of_driven, fun s => State.outputs_of_not_driven, fun i s t h => ?_, fun s => rfl⟩
  rw [exec_eq_perform, Host.Outcome.next.injEq] at h
  rw [← h, perform_opActions_oe]

/-- Settles O46: the reset values are those of `State.resetOf`; after `INIT` the pins hold the frame of its last
transfer, and both rows are reset. -/
theorem resetValues : Obligations.ResetValues := by
  refine ⟨?reset, fun s => ⟨perform (initActions s) s, exec_eq_perform .init s, ?init⟩⟩
  case reset =>
    rintro cfg _ rfl
    have hcur (r : Row) : (State.resetOf cfg).cur r = 0 := by cases r <;> rfl
    exact ⟨rfl, rfl, fun r => State.cellValid_of_cur_zero (hcur r), rfl, rfl, rfl, rfl, rfl, rfl, rfl, rfl, rfl⟩
  case init =>
    have hcur := perform_init_cur s
    rw [perform_init_pins]
    exact ⟨hcur .primary, hcur .secondary, rfl, rfl, rfl, rfl, rfl, fun r => State.cellValid_of_cur_zero (hcur r)⟩

end Sys2Proof.Machine

namespace Sys2Proof

/-! SUPPORT. The two fields of a port word, what the mask of the opcode maps keeps of it, and the row each value of the
`op` bits selects (spec/30_encoding.md R46 to R48). -/

section portWord
variable (w : PortWord)

/-- A word is its two `op` bits and its operand byte (R46, R48). -/
theorem portWord_op_operand : portWord (w.extractLsb' 8 2) (operandByte w) = w :=
  BitVec.extractLsb'_append_extractLsb' (w := 2) (len := 8)

/-- The mask keeps the `op` bits and clears the operand (R47, R48). -/
theorem portWord_and_opMask (op : BitVec 2) (arg : Byte) : portWord op arg &&& opMask = portWord op 0 := by
  have hmask : opMask = 3#2 ++ 0#8 := by decide
  have hop : op &&& 3#2 = op := BitVec.and_allOnes
  rw [portWord, hmask, BitVec.and_append, hop, BitVec.and_zero, portWord]
  rfl

/-- The `op` bits have four values, one for each row of an opcode map. -/
theorem and_opMask_cases : w &&& opMask = 0x000#10 ∨ w &&& opMask = 0x100#10 ∨ w &&& opMask = 0x200#10 ∨
    w &&& opMask = 0x300#10 := by
  have hop : ∀ op : BitVec 2, portWord op 0 = 0x000#10 ∨ portWord op 0 = 0x100#10 ∨ portWord op 0 = 0x200#10 ∨
      portWord op 0 = 0x300#10 := by decide
  rw [← portWord_op_operand w, portWord_and_opMask]
  exact hop _

/-- The canonical word of `WRCH` is its match plus the operand (R47). -/
theorem portWord_one (arg : Byte) : portWord 1 arg = 0x100#10 + arg.setWidth 10 := by
  apply BitVec.eq_of_toNat_eq
  have harg : arg.toNat < 2 ^ 8 := arg.isLt
  rw [portWord, BitVec.toNat_append, ← Nat.shiftLeft_add_eq_or_of_lt harg, BitVec.toNat_add, BitVec.toNat_setWidth]
  have hone : (1 : BitVec 2).toNat <<< 8 = (0x100#10).toNat := rfl
  omega

end portWord

section rows
variable {w : PortWord}

/-- Code 0 selects `INIT` and `T.INIT`. -/
theorem decode_of_op_zero (h : w &&& opMask = 0x000#10) : decode .host w = .init ∧ decode .transport w = .tInit := by
  simp [decode, decodeHost, decodeTransport, h]

/-- Code 1 selects `WRCH` and `T.CMD`, with the operand byte. -/
theorem decode_of_op_one (h : w &&& opMask = 0x100#10) :
    decode .host w = .wrch (operandByte w) ∧ decode .transport w = .tCmd (operandByte w) := by
  simp [decode, decodeHost, decodeTransport, h]

/-- Code 2 selects `CLRS`, and `T.DATA` with the operand byte. -/
theorem decode_of_op_two (h : w &&& opMask = 0x200#10) :
    decode .host w = .clrs ∧ decode .transport w = .tData (operandByte w) := by
  simp [decode, decodeHost, decodeTransport, h]

/-- Code 3 selects the reserved host code and `T.CLEAR`. -/
theorem decode_of_op_three (h : w &&& opMask = 0x300#10) : decode .host w = .rsvd ∧ decode .transport w = .tClear := by
  simp [decode, decodeHost, decodeTransport, h]

end rows

/-- Settles O2: the mask keeps the `op` bits alone, and each of their four values selects one row on each interface. -/
theorem opBitsSelectOperation : Obligations.OpBitsSelectOperation :=
  ⟨fun w => ⟨decode_of_op_zero, decode_of_op_one, decode_of_op_two, decode_of_op_three, and_opMask_cases w⟩,
    rfl, rfl, rfl, fun ch => by rw [encode, portWord_one]⟩

end Sys2Proof

namespace Sys2Proof

/-- The parameters with `MIRROR` set and every other parameter as it is (R4). -/
def Config.mirrorSet (cfg : Config) : Config := { cfg with mirror := true }

end Sys2Proof

namespace Sys2Proof.Machine

/-! SUPPORT. The bit-order transform as a map on the lines of an operation: with `MIRROR` set an operation goes through
the lines it goes through with `MIRROR` clear, each `SetDB` with its byte transformed (spec/30_encoding.md R51). -/

/-- A line with the bit-order transform applied to the byte it puts on the data bus, where it puts one. -/
def Action.mirrored : Action → Action
  | .pin ev => .pin ev.mirrored
  | .note ev => .note ev
  | .store a v => .store a v
  | .bump r => .bump r
  | .resetRow r => .resetRow r

/-- The state with `MIRROR` set, and with other pins and another pin-level trace. -/
def State.mirrorSet (s : State) (p : Pins) (evs : List PinEvent) : State :=
  { s with cfg := s.cfg.mirrorSet, pins := p, pinTrace := evs }

section lists
variable (as : List Action)

theorem pinsOf_map_mirrored : pinsOf (as.map Action.mirrored) = (pinsOf as).map PinEvent.mirrored := by
  induction as with
  | nil => rfl
  | cons a as ih => cases a <;> simp [Action.mirrored, pinsOf, ih]

/-- With `MIRROR` set a mirrored line does what the line does with it clear, but for pins and pin-level trace. -/
theorem Action.run_mirrored (a : Action) (s : State) (p : Pins) (evs : List PinEvent) :
    a.mirrored.run (s.mirrorSet p evs) = (a.run s).mirrorSet
      (((pinsOf [a]).map PinEvent.mirrored).foldl Pins.apply p) (evs ++ (pinsOf [a]).map PinEvent.mirrored) := by
  cases a with
  | pin ev => rfl
  | note ev => simp [Action.mirrored, State.mirrorSet, pinsOf]
  | store k v => simp [Action.mirrored, State.mirrorSet, pinsOf]
  | bump r => cases r <;> simp [Action.mirrored, State.mirrorSet, State.setCur, pinsOf]
  | resetRow r => cases r <;> simp [Action.mirrored, State.mirrorSet, State.setCur, pinsOf]

/-- The same of the lines of an operation. -/
theorem perform_map_mirrored (s : State) (p : Pins) (evs : List PinEvent) :
    perform (as.map Action.mirrored) (s.mirrorSet p evs) = (perform as s).mirrorSet
      (((pinsOf as).map PinEvent.mirrored).foldl Pins.apply p) (evs ++ (pinsOf as).map PinEvent.mirrored) := by
  induction as generalizing s p evs with
  | nil => simp [pinsOf]
  | cons a as ih =>
    have hpins : pinsOf (a :: as) = pinsOf [a] ++ pinsOf as := pinsOf_append [a] as
    rw [List.map_cons, perform_cons, Action.run_mirrored, ih, hpins, perform_cons, List.map_append, List.foldl_append,
      List.append_assoc]

end lists

section procedures
variable {cfg : Config}

theorem settle_mirrorSet (d : Duration) : settle cfg.mirrorSet d = (settle cfg d).map Action.mirrored := by
  cases hw : cfg.wdtEn <;> simp [settle, kickHook, hw, Config.mirrorSet, Action.mirrored, PinEvent.mirrored]

/-- The quiescent byte is a fixed point of the transform (R64). -/
theorem quiesce_mirrorSet : quiesce cfg.mirrorSet = (quiesce cfg).map Action.mirrored := rfl

variable (h : cfg.mirror = false)
include h

theorem xfer_mirrorSet (t : Tag) (b : Byte) : xfer cfg.mirrorSet t b = (xfer cfg t b).map Action.mirrored := by
  have hbus : busByte cfg.mirrorSet b = mirror8 (busByte cfg b) := by simp [busByte, h, Config.mirrorSet]
  rw [xfer, hbus]
  cases t <;> rfl

theorem tCmdActions_mirrorSet (b : Byte) :
    tCmdActions cfg.mirrorSet b = (tCmdActions cfg b).map Action.mirrored := xfer_mirrorSet h .cmd b

theorem tDataActions_mirrorSet (b : Byte) :
    tDataActions cfg.mirrorSet b = (tDataActions cfg b).map Action.mirrored := xfer_mirrorSet h .data b

theorem tClearActions_mirrorSet : tClearActions cfg.mirrorSet = (tClearActions cfg).map Action.mirrored := by
  rw [tClearActions, settle_mirrorSet, xfer_mirrorSet h, tClearActions, List.map_append]
  rfl

theorem tInitActions_mirrorSet : tInitActions cfg.mirrorSet = (tInitActions cfg).map Action.mirrored := by
  simp only [tInitActions, quiesce_mirrorSet, settle_mirrorSet, xfer_mirrorSet h, List.map_append]
  rfl

end procedures

section operations
variable {s : State} (h : s.cfg.mirror = false) (p : Pins) (evs : List PinEvent) (ch : Byte)

theorem padActions_mirrorSet : padActions (s.mirrorSet p evs) = (padActions s).map Action.mirrored := by
  rw [padActions, padActions, List.map_flatMap]
  rfl

include h

theorem putPrimaryActions_mirrorSet :
    putPrimaryActions ch (s.mirrorSet p evs) = (putPrimaryActions ch s).map Action.mirrored := by
  simp only [putPrimaryActions, List.map_append, apply_ite (List.map Action.mirrored), ← tCmdActions_mirrorSet h,
    ← tDataActions_mirrorSet h]
  rfl

theorem scrollUpActions_mirrorSet :
    scrollUpActions (s.mirrorSet p evs) = (scrollUpActions s).map Action.mirrored := by
  simp only [scrollUpActions, List.map_append, List.map_flatMap, List.map_cons, ← tCmdActions_mirrorSet h,
    ← tDataActions_mirrorSet h]
  rfl

theorem putSecondaryActions_mirrorSet :
    putSecondaryActions ch (s.mirrorSet p evs) = (putSecondaryActions ch s).map Action.mirrored := by
  simp only [putSecondaryActions, List.map_append, apply_ite (List.map Action.mirrored), ← tCmdActions_mirrorSet h,
    ← tDataActions_mirrorSet h, ← scrollUpActions_mirrorSet h p evs]
  rfl

theorem wrchActions_mirrorSet : wrchActions ch (s.mirrorSet p evs) = (wrchActions ch s).map Action.mirrored := by
  have hclass : charClass (s.mirrorSet p evs).cfg ch = charClass s.cfg ch := rfl
  have hfull : (s.mirrorSet p evs).rowFull .primary = s.rowFull .primary := rfl
  simp only [wrchActions, hclass, hfull]
  split
  · rfl
  · exact padActions_mirrorSet p evs
  · split
    · exact putSecondaryActions_mirrorSet h p evs ch
    · exact putPrimaryActions_mirrorSet h p evs ch

theorem writeChar_mirrorSet : ∃ q evs', writeChar (s.mirrorSet p evs) ch = (writeChar s ch).mirrorSet q evs' :=
  ⟨_, _, by rw [writeChar, wrchActions_mirrorSet h, perform_map_mirrored, writeChar]⟩

theorem wrstrLines_mirrorSet (cs : List Byte) : opActions.wrstrLines cs (s.mirrorSet p evs) =
    (opActions.wrstrLines cs s).map Action.mirrored := by
  induction cs generalizing s p evs with
  | nil => rfl
  | cons c cs ih =>
    obtain ⟨q, evs', hw⟩ := writeChar_mirrorSet h p evs c
    have hcfg : (writeChar s c).cfg.mirror = false := by rw [writeChar, perform_cfg, h]
    rw [opActions.wrstrLines, wrchActions_mirrorSet h, hw, ih hcfg, opActions.wrstrLines, List.map_append]

/-- With `MIRROR` set an operation goes through the mirrored lines (R51). -/
theorem opActions_mirrorSet (i : Instr) : opActions i (s.mirrorSet p evs) = (opActions i s).map Action.mirrored := by
  cases i with
  | init => rw [opActions, initActions, opActions, initActions, List.map_append, ← tInitActions_mirrorSet h]; rfl
  | wrch c => exact wrchActions_mirrorSet h p evs c
  | clrs => rw [opActions, clrsActions, opActions, clrsActions, List.map_append, ← tClearActions_mirrorSet h]; rfl
  | rsvd => rfl
  | wrstr cs => exact wrstrLines_mirrorSet h p evs cs
  | tInit => exact tInitActions_mirrorSet h
  | tCmd b => exact tCmdActions_mirrorSet h b
  | tData b => exact tDataActions_mirrorSet h b
  | tClear => exact tClearActions_mirrorSet h

end operations

/-- Pin events that are none at all, or put a byte on the data bus. -/
def DrivesBus (evs : List PinEvent) : Prop := evs = [] ∨ ∃ b, .setDB b ∈ evs

section bus
variable {evs : List PinEvent}

/-- The bus carries the last byte put on it: where one is put, what it carried before is beside the point (R32). -/
theorem foldl_apply_of_setDB {b : Byte} (h : .setDB b ∈ evs) (p : Pins) (x : Byte) :
    evs.foldl Pins.apply { p with db := x } = evs.foldl Pins.apply p := by
  induction evs generalizing p x with
  | nil => cases h
  | cons ev evs ih =>
    obtain rfl | hmem := List.mem_cons.mp h
    · rfl
    · have hstep : ∃ y, Pins.apply { p with db := x } ev = { p.apply ev with db := y } := by
        cases ev <;> exact ⟨_, rfl⟩
      obtain ⟨y, hy⟩ := hstep
      rw [List.foldl_cons, hy, ih hmem, List.foldl_cons]

/-- From a mirrored byte on the bus, mirrored events leave a mirrored byte there and the other pins as they would be. -/
theorem foldl_apply_mirrored (evs : List PinEvent) (p : Pins) :
    (evs.map PinEvent.mirrored).foldl Pins.apply { p with db := mirror8 p.db } =
      { evs.foldl Pins.apply p with db := mirror8 (evs.foldl Pins.apply p).db } := by
  induction evs generalizing p with
  | nil => rfl
  | cons ev evs ih =>
    have hstep : Pins.apply { p with db := mirror8 p.db } ev.mirrored =
        { p.apply ev with db := mirror8 (p.apply ev).db } := by cases ev <;> rfl
    rw [List.map_cons, List.foldl_cons, hstep, ih, List.foldl_cons]

/-- From any pins, mirrored events that put a byte on the bus leave the mirrored byte there. -/
theorem DrivesBus.foldl_mirrored (h : DrivesBus evs) (p : Pins) :
    (evs.map PinEvent.mirrored).foldl Pins.apply p =
      { evs.foldl Pins.apply p with db := if evs = [] then p.db else mirror8 (evs.foldl Pins.apply p).db } := by
  obtain rfl | ⟨b, hb⟩ := h
  · rfl
  · have hm : .setDB (mirror8 b) ∈ evs.map PinEvent.mirrored := List.mem_map_of_mem (f := PinEvent.mirrored) hb
    rw [← foldl_apply_of_setDB hm p (mirror8 p.db), foldl_apply_mirrored, if_neg (List.ne_nil_of_mem hb)]

variable {as bs : List Action}

theorem DrivesBus.append (ha : DrivesBus (pinsOf as)) (hb : DrivesBus (pinsOf bs)) : DrivesBus (pinsOf (as ++ bs)) := by
  rw [pinsOf_append]
  obtain ha | ⟨b, ha⟩ := ha
  · rwa [ha, List.nil_append]
  · exact .inr ⟨b, List.mem_append_left _ ha⟩

/-- Lines that hold a transfer put a byte on the bus (R62). -/
theorem drivesBus_xfer (cfg : Config) (t : Tag) (b : Byte) : DrivesBus (pinsOf (as ++ xfer cfg t b ++ bs)) := by
  have hb : .setDB (busByte cfg b) ∈ pinsOf (xfer cfg t b) := by simp [xfer, pinsOf]
  simp only [pinsOf_append]
  exact .inr ⟨_, List.mem_append_left _ (List.mem_append_right _ hb)⟩

theorem drivesBus_wrch (ch : Byte) (s : State) : DrivesBus (pinsOf (wrchActions ch s)) := by
  unfold wrchActions
  split
  · exact .inl rfl
  · exact .inl (pinsOf_pad s)
  · split
    · exact drivesBus_xfer s.cfg .data ch
    · exact drivesBus_xfer s.cfg .data ch

theorem drivesBus_wrstr (cs : List Byte) (s : State) : DrivesBus (pinsOf (opActions.wrstrLines cs s)) := by
  induction cs generalizing s with
  | nil => exact .inl rfl
  | cons c cs ih => exact (drivesBus_wrch c s).append (ih _)

/-- An operation that emits puts a byte on the bus: it holds a transfer. -/
theorem drivesBus_opActions (i : Instr) (s : State) : DrivesBus (pinsOf (opActions i s)) := by
  cases i with
  | init => exact drivesBus_xfer s.cfg .cmd s.cfg.cmdRow1
  | wrch c => exact drivesBus_wrch c s
  | clrs =>
    rw [opActions, clrsActions, tClearActions, List.append_assoc]
    exact drivesBus_xfer (as := []) s.cfg .cmd s.cfg.cmdClear
  | rsvd => exact .inl rfl
  | wrstr cs => exact drivesBus_wrstr cs s
  | tInit =>
    have h : DrivesBus (pinsOf (tInitActions s.cfg ++ [])) := drivesBus_xfer s.cfg .cmd s.cfg.cmdRow1
    rwa [List.append_nil] at h
  | tCmd b => exact drivesBus_xfer (as := []) (bs := []) s.cfg .cmd b
  | tData b => exact drivesBus_xfer (as := []) (bs := []) s.cfg .data b
  | tClear => exact drivesBus_xfer (as := []) s.cfg .cmd s.cfg.cmdClear

end bus

/-- What an operation does with `MIRROR` set, from what it does with `MIRROR` clear (R51). -/
theorem perform_opActions_mirrorSet {s : State} (h : s.cfg.mirror = false) (i : Instr) :
    perform (opActions i (s.mirrorSet s.pins s.pinTrace)) (s.mirrorSet s.pins s.pinTrace) =
      (perform (opActions i s) s).mirrorSet
        { (perform (opActions i s) s).pins with
          db := if pinsOf (opActions i s) = [] then s.pins.db else mirror8 (perform (opActions i s) s).pins.db }
        (s.pinTrace ++ (pinsOf (opActions i s)).map PinEvent.mirrored) := by
  rw [opActions_mirrorSet h, perform_map_mirrored, (drivesBus_opActions i s).foldl_mirrored, perform_pins]

/-- Settles O25: the lines with `MIRROR` set are the mirrored lines, and an operation that emits puts a byte on the bus,
so that the byte from before it does not stay there. -/
theorem mirrorShowsOnTheBusOnly : Obligations.MirrorShowsOnTheBusOnly := by
  intro i s t ht
  rw [exec_eq_perform, Host.Outcome.next.injEq] at ht
  subst ht
  have hclear : ({ s with cfg := { s.cfg with mirror := false } } : State).cfg.mirror = false := rfl
  refine ⟨_, _, exec_eq_perform i _, perform_pinTrace _ _, (perform_opActions_mirrorSet hclear i).trans ?_⟩
  rw [State.mirrorSet, perform_cfg]
  rfl

end Sys2Proof.Machine

namespace Sys2Proof.Machine

/-! SUPPORT. The Bus Transport: the bits of the bit-order transform, and the lines that write neither a row nor a
cursor: one transfer, the settle wait, `T.CLEAR` and `T.INIT` (spec/40_bus_transport.md R60 to R71). -/

section mirror
variable (b : Byte)

/-- Each bit of the transformed byte is the bit at the mirrored place (R60). -/
theorem mirror8_getLsbD {i : Nat} (h : i < 8) : (mirror8 b).getLsbD i = b.getLsbD (7 - i) := by
  -- read at the width that `++` builds up, so that `BitVec.getLsbD_append` takes the eight pieces apart
  change BitVec.getLsbD (w := 1 + 1 + 1 + 1 + 1 + 1 + 1 + 1) (mirror8 b) i = _
  simp only [mirror8, BitVec.getLsbD_append, BitVec.getLsbD_ofBool]
  interval_cases i <;> simp

/-- The transform of a byte is known by its bits. -/
theorem mirror8_eq_iff (c : Byte) : mirror8 b = c ↔ ∀ i < 8, c.getLsbD i = b.getLsbD (7 - i) := by
  constructor
  · rintro rfl i hi
    exact mirror8_getLsbD b hi
  · intro h
    exact BitVec.eq_of_getLsbD_eq fun i hi => (mirror8_getLsbD b hi).trans (h i hi).symm

/-- Twice the transform is the byte again: 7 - (7 - i) = i (R60). -/
theorem mirror8_involutive : Function.Involutive mirror8 := by
  intro b
  rw [mirror8_eq_iff]
  intro i hi
  rw [mirror8_getLsbD b (by omega), show 7 - (7 - i) = i by omega]

/-- Counting in blocks of 16: with one hit in every block there are as many hits as blocks. -/
theorem countP_range_of_blocks (p : Nat → Bool) (n : Nat)
    (h : ∀ k < n, ((List.range 16).map (16 * k + ·)).countP p = 1) : (List.range (16 * n)).countP p = n := by
  induction n with
  | zero => rfl
  | succ n ih =>
    rw [Nat.mul_succ, List.range_add, List.countP_append, ih fun k hk => h k (by omega), h n (by omega)]

/-- The transform has 16 fixed points (R60): to every upper half of a byte, one lower half mirrors it. -/
theorem countP_mirror8_fixed :
    (List.range 256).countP (fun n => decide (mirror8 (BitVec.ofNat 8 n) = BitVec.ofNat 8 n)) = 16 :=
  countP_range_of_blocks _ 16 (by decide)

end mirror

/-- Settles O12: bit `i` of the transform is bit `7 - i` of the byte; the rest follows bit by bit. -/
theorem mirrorReversesTheBits : Obligations.MirrorReversesTheBits :=
  ⟨fun b _ => mirror8_getLsbD b, mirror8_involutive, mirror8_involutive.bijective, fun b => mirror8_eq_iff b b,
    countP_mirror8_fixed⟩

section quiet
variable {as : List Action} (s : State)

/-- Lines that write neither a row nor a cursor change the pins and the two traces only (R71). -/
theorem perform_of_writesOf_nil (h : writesOf as = []) : perform as s = { s with
    pins := (pinsOf as).foldl Pins.apply s.pins
    trace := s.trace ++ notesOf as
    pinTrace := s.pinTrace ++ pinsOf as } := by
  have hall := perform_eq as s
  rwa [h] at hall

/-- Such lines, when they emit as R73 says, are known by their byte-level events and by what they leave in the pins. -/
theorem perform_of_expands (hw : writesOf as = []) (he : Expands s.cfg as) {p : Pins}
    (hp : (pinsOf as).foldl Pins.apply s.pins = p) : perform as s = { s with
      pins := p
      trace := s.trace ++ notesOf as
      pinTrace := s.pinTrace ++ (notesOf as).flatMap (expand s.cfg) } := by
  rw [perform_of_writesOf_nil s hw, hp, he]

end quiet

section transfer
variable (t : Tag) (b : Byte) (s : State)

/-- One transfer: its frame on the pins with the enable line deasserted, its byte-level event, and that event's pin
events (R62). -/
theorem perform_xfer : perform (xfer s.cfg t b) s = { s with
    pins := { oe := s.pins.oe, rs := tagLevel s.cfg t, rw := s.cfg.rwWrite, e := s.cfg.eOff, db := busByte s.cfg b }
    trace := s.trace ++ [transferEvent t b]
    pinTrace := s.pinTrace ++ expand s.cfg (transferEvent t b) } := by
  rw [perform_of_writesOf_nil s (writesOf_xfer s.cfg t b), pinsOf_xfer, foldl_expand_transfer, notesOf_xfer]

/-- A transfer puts one byte on the data bus, that of R61. -/
theorem setDB_mem_expand_transfer (cfg : Config) (x : Byte) :
    .setDB x ∈ expand cfg (transferEvent t b) ↔ x = busByte cfg b := by
  cases t <;> simp [transferEvent, expand]

end transfer

/-- Settles O14: the lines of `T.CMD b` are one transfer with the command tag. -/
theorem sendCommandIsOneTransfer : Obligations.SendCommandIsOneTransfer :=
  fun b s => ⟨_, rfl, perform_xfer .cmd b s⟩

/-- Settles O15: the lines of `T.DATA b` are one transfer with the data tag. -/
theorem sendDataIsOneTransfer : Obligations.SendDataIsOneTransfer :=
  fun b s => ⟨_, rfl, perform_xfer .data b s⟩

/-- Settles O13: `T.CMD b` and `T.DATA b` are each one transfer, and a transfer puts `busByte` on the bus whatever its
tag. -/
theorem busByteFollowsTheMirrorFlag : Obligations.BusByteFollowsTheMirrorFlag := by
  refine ⟨fun cfg b => ⟨fun h => by simp [busByte, h], fun h => by simp [busByte, h]⟩, fun i b s hi => ?_⟩
  obtain ⟨tag, hexec⟩ : ∃ tag, exec i s = .next (perform (xfer s.cfg tag b) s) := by
    obtain rfl | rfl := hi
    · exact ⟨.cmd, rfl⟩
    · exact ⟨.data, rfl⟩
  rw [perform_xfer] at hexec
  exact ⟨_, _, hexec, rfl, setDB_mem_expand_transfer tag b s.cfg, rfl⟩

section micros
variable (cfg : Config) (evs evs' : List PinEvent)

@[simp] theorem eventsMicros_nil : eventsMicros [] = 0 := rfl
@[simp] theorem eventsMicros_append : eventsMicros (evs ++ evs') = eventsMicros evs + eventsMicros evs' := by
  simp [eventsMicros]

/-- The least time of each byte-level event: an enable pulse for a transfer, the settle time for a wait, and none for
`K` and `Q` (R130, R131). -/
@[simp] theorem eventsMicros_expand_c (b : Byte) : eventsMicros (expand cfg (.c b)) = 80 := rfl
@[simp] theorem eventsMicros_expand_d (b : Byte) : eventsMicros (expand cfg (.d b)) = 80 := rfl
@[simp] theorem eventsMicros_expand_w (d : Duration) : eventsMicros (expand cfg (.w d)) = d.minMicros := by
  simp [eventsMicros, expand, PinEvent.micros]
@[simp] theorem eventsMicros_expand_k : eventsMicros (expand cfg .k) = 0 := rfl
@[simp] theorem eventsMicros_expand_q : eventsMicros (expand cfg .q) = 0 := rfl

end micros

section startup
variable (cfg : Config)

/-- A settle wait leaves the pins alone, with and without the watchdog hook (R63, R108). -/
theorem foldl_pinsOf_settle (d : Duration) (p : Pins) : (pinsOf (settle cfg d)).foldl Pins.apply p = p := by
  cases hw : cfg.wdtEn <;> simp [hw, expand]

/-- The pins after the clear command and its settle wait: those of the command (R68). -/
theorem foldl_pinsOf_tClear (p : Pins) : (pinsOf (tClearActions cfg)).foldl Pins.apply p =
    { oe := p.oe, rs := cfg.rsCmd, rw := cfg.rwWrite, e := cfg.eOff, db := busByte cfg cfg.cmdClear } := by
  rw [tClearActions, pinsOf_append, List.foldl_append, foldl_pinsOf_settle, pinsOf_xfer, foldl_expand_transfer]
  rfl

/-- The byte-level events of `T.CLEAR` (R68). -/
theorem notesOf_tClear : notesOf (tClearActions cfg) =
    if cfg.wdtEn then [.c cfg.cmdClear, .k, .w .tClear, .k] else [.c cfg.cmdClear, .w .tClear] := by
  cases hw : cfg.wdtEn <;> simp [tClearActions, hw, transferEvent]

/-- The byte-level events of `T.INIT`, the nine steps in order (R67). -/
theorem notesOf_tInit : notesOf (tInitActions cfg) =
    if cfg.wdtEn then
      [.q, .k, .w .tPoweron, .k, .c cfg.cmdFn2l, .c cfg.cmdEntry, .c cfg.cmdOnBlink, .c cfg.cmdClear, .k,
        .w .tClear, .k, .d cfg.chSpace, .c cfg.cmdRow1]
    else
      [.q, .w .tPoweron, .c cfg.cmdFn2l, .c cfg.cmdEntry, .c cfg.cmdOnBlink, .c cfg.cmdClear, .w .tClear,
        .d cfg.chSpace, .c cfg.cmdRow1] := by
  cases hw : cfg.wdtEn <;> simp [tInitActions, hw, transferEvent]

end startup

/-- Settles O17: the lines write no row and no cursor, their pin events expand the events of `notesOf_tClear`, and the
settle wait leaves the pins as the clear command left them. -/
theorem transportClearSendsAndWaits : Obligations.TransportClearSendsAndWaits := by
  intro s
  refine ⟨notesOf (tClearActions s.cfg), _, exec_eq_perform .tClear s, notesOf_tClear s.cfg,
    perform_of_expands s (writesOf_tClear s.cfg) (expands_tClear s.cfg)
      (foldl_pinsOf_tClear s.cfg s.pins), ?length, ?micros⟩
  case length =>
    rw [notesOf_tClear]
    cases s.cfg.wdtEn <;> rfl
  case micros =>
    rw [notesOf_tClear]
    cases s.cfg.wdtEn <;> simp [Duration.minMicros]

/-- Settles O16: the lines write no row and no cursor, their pin events expand the events of `notesOf_tInit`, and the
last transfer leaves its frame on the pins that `quiesce` began to drive. -/
theorem transportInitRunsNineSteps : Obligations.TransportInitRunsNineSteps := by
  intro s
  refine ⟨notesOf (tInitActions s.cfg), _, exec_eq_perform .tInit s, notesOf_tInit s.cfg,
    perform_of_expands s (writesOf_tInit s.cfg) (expands_tInit s.cfg)
      (foldl_pinsOf_tInit s.pins s.cfg), ?length, ?micros⟩
  case length =>
    rw [notesOf_tInit]
    cases s.cfg.wdtEn <;> rfl
  case micros =>
    rw [notesOf_tInit]
    cases s.cfg.wdtEn <;> simp [Duration.minMicros]

section rows
variable {i : Instr} (h : i.iface = .transport) (s : State)
include h

/-- No line of a transport operation writes a row or a cursor (R71). -/
theorem writesOf_opActions_of_transport : writesOf (opActions i s) = [] := by
  cases i
  case tInit => exact writesOf_tInit s.cfg
  case tCmd b => exact writesOf_tCmd s.cfg b
  case tData b => exact writesOf_tData s.cfg b
  case tClear => exact writesOf_tClear s.cfg
  all_goals cases h

/-- A transport operation goes through lines that the parameters alone fix, and they write pins and traces only: what it
does is the same in every state with these parameters (R71). -/
theorem exec_of_transport {s t : State} (hcfg : t.cfg = s.cfg) : exec i t = .next { t with
    pins := (pinsOf (opActions i s)).foldl Pins.apply t.pins
    trace := t.trace ++ notesOf (opActions i s)
    pinTrace := t.pinTrace ++ pinsOf (opActions i s) } := by
  have hlines : opActions i t = opActions i s := by
    cases i
    case tInit => exact congrArg tInitActions hcfg
    case tCmd b => exact congrArg (tCmdActions · b) hcfg
    case tData b => exact congrArg (tDataActions · b) hcfg
    case tClear => exact congrArg tClearActions hcfg
    all_goals cases h
  rw [exec_eq_perform, hlines, perform_of_writesOf_nil t (writesOf_opActions_of_transport h s)]

end rows

/-- Settles O18: the lines of a transport operation are the same whatever the rows hold, and write neither a row nor a
cursor. -/
theorem transportTouchesNoRow : Obligations.TransportTouchesNoRow :=
  fun _ s _ _ _ hi => ⟨_, exec_of_transport hi (s := s) rfl, rfl, exec_of_transport hi rfl⟩

end Sys2Proof.Machine

namespace Sys2Proof.Machine

/-! SUPPORT. The Line Buffer: the class of each special character, what `WRCH` leaves unchanged for each class, and the
events and pins of a visible character (spec/41_line_buffer.md R81 to R90). -/

section special
variable (cfg : Config)

/-- The test for carriage-return is the first of R52. -/
theorem charClass_chCr : charClass cfg cfg.chCr = .carriageReturn := by
  simp [charClass]

/-- The newline code is tested second, so it is a newline where it differs from carriage-return (R4, R52). -/
theorem charClass_chNl (h : cfg.wf = true) : charClass cfg cfg.chNl = .newline := by
  simp [charClass, show cfg.chNl ≠ cfg.chCr by simpa [Config.wf] using h]

end special

/-- Settles O27: the line list of a carriage-return is empty, whatever the state. -/
theorem carriageReturnIsInert : Obligations.CarriageReturnIsInert := by
  intro s
  rw [exec_eq_perform, opActions, wrchActions_carriageReturn s _ (charClass_chCr s.cfg), perform_nil]

/-- Settles O35: `RSVD` has no lines to perform. -/
theorem reservedCodeChangesNothing : Obligations.ReservedCodeChangesNothing :=
  exec_eq_perform .rsvd

/-- Running `WRCH` of each byte in order is writing the characters one after the other: no `WRCH` stops the run. -/
theorem execAll_map_wrch (cs : List Byte) (s : State) : execAll (cs.map .wrch) s = .next (cs.foldl writeChar s) := by
  induction cs generalizing s with
  | nil => rfl
  | cons c cs ih => exact ih (writeChar s c)

/-- Settles O34, by induction on the string: both sides write its characters one after the other. -/
theorem writeStringIsCharacterByCharacter : Obligations.WriteStringIsCharacterByCharacter :=
  fun cs s => ⟨(execAll_map_wrch cs s).symm, cs.foldl writeChar s, rfl⟩

/-- Lines that emit no event of either trace change row memory and the cursors only. -/
theorem perform_of_no_event {as : List Action} (s : State) (hn : notesOf as = []) (hp : pinsOf as = []) :
    perform as s = { s with
      cells := (perform as s).cells
      cur0 := (perform as s).cur0
      cur1 := (perform as s).cur1 } := by
  have hpins : (perform as s).pins = s.pins := by rw [perform_pins, hp]; rfl
  have htrace : (perform as s).trace = s.trace := by rw [perform_trace, hn, List.append_nil]
  have hpinTrace : (perform as s).pinTrace = s.pinTrace := by rw [perform_pinTrace, hp, List.append_nil]
  exact State.ext_fields (perform_cfg s as) rfl rfl rfl hpins (perform_busy s as) (perform_seq s as) htrace hpinTrace
    (perform_script s as)

/-- In a state of the invariant both cursors, so also that of the working row, are at most 16 (R24). -/
theorem State.CursorsOk.cur_le {s : State} (h : s.CursorsOk) (r : Row) : (s.cur r).toNat ≤ 16 := by
  cases r
  · exact h.cur0_le
  · exact h.cur1_le

section newline
variable (s : State)

/-- A newline changes row memory and the cursors only (R83). -/
theorem writeChar_newline_frame {ch : Byte} (h : charClass s.cfg ch = .newline) : writeChar s ch = { s with
    cells := (writeChar s ch).cells
    cur0 := (writeChar s ch).cur0
    cur1 := (writeChar s ch).cur1 } := by
  rw [writeChar, wrchActions_newline s ch h]
  exact perform_of_no_event s (notesOf_pad s) (pinsOf_pad s)

/-- A newline on a working row whose cursor is at most 16 pads the row: spaces from the cursor to index 15, the cursor
then 16, the other row as before (R83). -/
theorem writeChar_newline_pads {ch : Byte} (h : charClass s.cfg ch = .newline)
    (hr : (s.cur s.workingRow).toNat ≤ 16) :
    (∀ r, (writeChar s ch).cur r = if r = s.workingRow then 16 else s.cur r) ∧
    (∀ a, (writeChar s ch).cells.read a =
      if cellAddr s.workingRow (s.cur s.workingRow).toNat ≤ a ∧ a < cellAddr s.workingRow 16 then some s.cfg.chSpace
      else s.cells.read a) := by
  cases writeChar_effect s ch with
  | pad _ _ cells cur =>
    refine ⟨fun r => BitVec.eq_of_toNat_eq ?_, cells⟩
    rw [cur r]
    split <;> rfl
  | padNothing _ hr' _ => omega
  | inert hc | primary hc | secondary hc | scroll hc => rw [h] at hc; cases hc

end newline

/-- Settles O28: the pad loop emits no event, and by the invariant it starts from a cursor of at most 16. -/
theorem newlinePadsInMemoryOnly : Obligations.NewlinePadsInMemoryOnly := by
  intro s hwf hcur
  have hclass := charClass_chNl s.cfg hwf
  exact ⟨writeChar s s.cfg.chNl, rfl, writeChar_newline_frame s hclass,
    writeChar_newline_pads s hclass (hcur.cur_le s.workingRow)⟩

section visible
variable (s : State) (ch : Byte)

/-- Whichever row it goes to, a visible character ends with its own data transfer and its cursor's increment
(R84, R86). -/
theorem wrchActions_visible (h : charClass s.cfg ch = .visible) : ∃ as r, Blocks s.cfg as ∧
    wrchActions ch s = as ++ xfer s.cfg .data ch ++ [.bump r] := by
  by_cases h0 : s.cur0.toNat < 16
  · exact ⟨_, .primary, (Blocks.ite (.xfer .cmd s.cfg.cmdRow1)).append (.store _ ch), wrchActions_primary s ch h h0⟩
  · exact ⟨_, .secondary, ((Blocks.ite (.xfer .cmd s.cfg.cmdRow2)).append (.ite (.scrollUp s))).append (.store _ ch),
      wrchActions_secondary s ch h (by omega)⟩

/-- A visible character leaves the frame of its data transfer on the pins, and `OE` as it was (R72, R84, R86). -/
theorem foldl_pinsOf_wrch_visible (h : charClass s.cfg ch = .visible) (p : Pins) :
    (pinsOf (wrchActions ch s)).foldl Pins.apply p =
      { oe := p.oe, rs := s.cfg.rsData, rw := s.cfg.rwWrite, e := s.cfg.eOff, db := busByte s.cfg ch } := by
  obtain ⟨as, r, hblocks, hlines⟩ := wrchActions_visible s ch h
  rw [hlines, pinsOf_append, show pinsOf [.bump r] = [] from rfl, List.append_nil, foldl_pinsOf_append_xfer,
    hblocks.oe_kept]
  rfl

/-- Everything a visible character does: its writing lines decide row memory and cursors, the pins hold the frame of its
data transfer, and the traces grow by its events and their expansion (R73, R84, R86). -/
theorem writeChar_visible (h : charClass s.cfg ch = .visible) : writeChar s ch = { s with
    cells := (perform (writesOf (wrchActions ch s)) s).cells
    cur0 := (perform (writesOf (wrchActions ch s)) s).cur0
    cur1 := (perform (writesOf (wrchActions ch s)) s).cur1
    pins := { oe := s.pins.oe, rs := s.cfg.rsData, rw := s.cfg.rwWrite, e := s.cfg.eOff, db := busByte s.cfg ch }
    trace := s.trace ++ notesOf (wrchActions ch s)
    pinTrace := s.pinTrace ++ (notesOf (wrchActions ch s)).flatMap (expand s.cfg) } := by
  have hall := perform_eq (wrchActions ch s) s
  rwa [foldl_pinsOf_wrch_visible s ch h, expands_wrch s ch] at hall

/-- The row move comes before the data byte on a fresh row, and on no other (R84, R86). -/
theorem rowMove_append_data (r : Row) (move : Byte) :
    (if s.rowFresh r then [.c move] else []) ++ [.d ch] =
      if (s.cur r).toNat = 0 then [ByteEvent.c move, .d ch] else [.d ch] := by
  simp only [s.rowFresh_iff r]
  split <;> rfl

end visible

/-- Settles O29: on a primary row that is not full the writing lines are one store and one increment, and the events
are the row move of a fresh row and the data byte. -/
theorem visibleCharacterFillsThePrimaryRow : Obligations.VisibleCharacterFillsThePrimaryRow := by
  intro ch s hclass h0
  have hwrite := writeChar_visible s ch hclass
  rw [wrchActions_primary s ch hclass h0, writesOf_putPrimary, notesOf_putPrimary] at hwrite
  exact ⟨_, _, congrArg Host.Outcome.next hwrite, rowMove_append_data s ch .primary s.cfg.cmdRow1, rfl,
    fun a => Memory.read_write s.cells _ a ch⟩

end Sys2Proof.Machine

namespace Sys2Proof.Machine

/-! SUPPORT. What one step does in each of its three cases, and that none of them stops the core
(spec/60_exceptions.md R100). -/

section step
variable {s : State}

/-- A busy core finishes the operation in progress (R18, R58). -/
theorem step_of_busy (h : s.busy = true) : step s = .next (finish s) := by
  rw [step, if_pos h]

/-- An idle core with no word presented holds everything (R113). -/
theorem step_of_no_word (hb : s.busy = false) (hs : s.script = []) : step s = .next s := by
  simp [step, hb, hs]

/-- An idle core takes the next word presented and runs the operation it decodes to (R110). -/
theorem step_of_word {p : Presented} {rest : List Presented} (hb : s.busy = false) (hs : s.script = p :: rest) :
    step s = exec (decode p.iface p.word) { s with script := rest } := by
  simp [step, hb, hs]

end step

/-- A busy core completes the operation in progress, and an idle one the operation of the next word, if there is one. -/
theorem step_completes (s : State) : ∃ t, step s = .next t := by
  cases hb : s.busy with
  | true => exact ⟨_, step_of_busy hb⟩
  | false =>
    cases hs : s.script with
    | nil => exact ⟨_, step_of_no_word hb hs⟩
    | cons p rest => exact ⟨_, (step_of_word hb hs).trans (exec_eq_perform _ _)⟩

/-- Settles O10: `Fault` has no constructor, and every operation performs its lines to the end, whatever the state. -/
theorem everyOperationCompletes : Obligations.EveryOperationCompletes :=
  ⟨⟨nofun⟩, fun i s => ⟨_, exec_eq_perform i s⟩, step_completes⟩

end Sys2Proof.Machine

namespace Sys2Proof.Machine

/-! SUPPORT. The whole state `INIT` ends in, and that a second `INIT` finds both rows without a value already
(spec/41_line_buffer.md R87, spec/70_reset_and_hazards.md R120). -/

/-- Once both rows have gone stale no cell is left with a value for a second reset of them to take (R13). -/
theorem Memory.dropRow_both_idem (m : Memory) :
    (((m.dropRow .primary).dropRow .secondary).dropRow .primary).dropRow .secondary =
      (m.dropRow .primary).dropRow .secondary := by
  simp only [Memory.dropRow, List.filter_filter]
  refine List.filter_congr fun c _ => ?_
  cases inRow .primary c.1 <;> cases inRow .secondary c.1 <;> rfl

/-- Everything `INIT` does: the parameters alone decide its pins and events, those of the nine steps of `T.INIT`, and
both rows are reset (R67, R87). -/
theorem perform_init {s : State} {cfg : Config} (h : s.cfg = cfg) : perform (initActions s) s = { s with
    cells := (s.cells.dropRow .primary).dropRow .secondary
    cur0 := 0
    cur1 := 0
    pins := { oe := true, rs := cfg.rsCmd, rw := cfg.rwWrite, e := cfg.eOff, db := busByte cfg cfg.cmdRow1 }
    trace := s.trace ++ notesOf (tInitActions cfg)
    pinTrace := s.pinTrace ++ pinsOf (tInitActions cfg) } := by
  subst h
  rw [initActions, perform_append, perform_of_writesOf_nil s (writesOf_tInit s.cfg), foldl_pinsOf_tInit]
  rfl

/-- No cell is valid after `INIT` (R12, R87). -/
theorem perform_init_cellValid (s : State) (r : Row) (i : Nat) :
    (perform (initActions s) s).cellValid r i = false :=
  State.cellValid_of_cur_zero (perform_init_cur s r) i

/-- A second `INIT` directly after the first makes both traces longer and changes nothing else (R120). -/
theorem perform_init_twice {s t : State} (h : perform (initActions s) s = t) : perform (initActions t) t = { t with
    trace := (perform (initActions t) t).trace
    pinTrace := (perform (initActions t) t).pinTrace } := by
  have hcells : (t.cells.dropRow .primary).dropRow .secondary = t.cells := by
    rw [← h, perform_init rfl]
    exact Memory.dropRow_both_idem s.cells
  rw [perform_init rfl, hcells, ← h, perform_init rfl]

/-- Settles O49: the parameters alone fix the events of `INIT` and the pins it ends with, and both rows end without a
value; a second `INIT` finds pins, cursors and rows as it leaves them. -/
theorem repeatedInitIsTheSame : Obligations.RepeatedInitIsTheSame := by
  refine ⟨fun s s' hcfg => ⟨perform (initActions s) s, perform (initActions s') s', notesOf (tInitActions s.cfg),
    pinsOf (tInitActions s.cfg), exec_eq_perform .init s, exec_eq_perform .init s', ?first, ?second,
    fun r i => ⟨perform_init_cellValid s r i, perform_init_cellValid s' r i⟩⟩, fun s t u ht hu => ?twice⟩
  case first => rw [perform_init rfl]
  case second => rw [perform_init hcfg, perform_init (s := s) rfl]
  case twice =>
    rw [exec_eq_perform, Host.Outcome.next.injEq] at ht hu
    rw [← hu]
    exact perform_init_twice ht

end Sys2Proof.Machine

namespace Sys2Proof

/-! SUPPORT. The row a word `{op, arg}` selects, and that decoding inverts encoding (spec/30_encoding.md R46 to R48,
R57). -/

section roundTrip
variable (op : BitVec 2) (arg : Byte)

/-- The operand of a word is the byte it was put together from (R50). -/
@[simp] theorem operandByte_portWord : operandByte (portWord op arg) = arg := by
  apply BitVec.eq_of_getLsbD_eq
  intro i hi
  simp only [operandByte, portWord, BitVec.getLsbD_extractLsb', BitVec.getLsbD_append, Nat.zero_add]
  simp [hi]

theorem decode_portWord_zero : decode .host (portWord 0 arg) = .init ∧
    decode .transport (portWord 0 arg) = .tInit :=
  decode_of_op_zero (portWord_and_opMask 0 arg)

theorem decode_portWord_one : decode .host (portWord 1 arg) = .wrch arg ∧
    decode .transport (portWord 1 arg) = .tCmd arg := by
  simpa using decode_of_op_one (portWord_and_opMask 1 arg)

theorem decode_portWord_two : decode .host (portWord 2 arg) = .clrs ∧
    decode .transport (portWord 2 arg) = .tData arg := by
  simpa using decode_of_op_two (portWord_and_opMask 2 arg)

theorem decode_portWord_three : decode .host (portWord 3 arg) = .rsvd ∧
    decode .transport (portWord 3 arg) = .tClear :=
  decode_of_op_three (portWord_and_opMask 3 arg)

end roundTrip

/-- Decoding the words of an operation gives its expansion (R57). -/
theorem map_decode_encode (i : Instr) : (encode i).map (fun p => decode p.iface p.word) = i.expansion := by
  cases i with
  | init => exact congrArg ([·]) (decode_portWord_zero 0).1
  | wrch ch => exact congrArg ([·]) (decode_portWord_one ch).1
  | clrs => exact congrArg ([·]) (decode_portWord_two 0).1
  | rsvd => exact congrArg ([·]) (decode_portWord_three 0).1
  | wrstr s =>
    rw [encode, List.map_map]
    exact List.map_congr_left fun c _ => (decode_portWord_one c).1
  | tInit => exact congrArg ([·]) (decode_portWord_zero 0).2
  | tCmd b => exact congrArg ([·]) (decode_portWord_one b).2
  | tData b => exact congrArg ([·]) (decode_portWord_two b).2
  | tClear => exact congrArg ([·]) (decode_portWord_three 0).2

/-- The words of an operation stand on its own interface (R45). -/
theorem iface_of_mem_encode {i : Instr} {p : Presented} (h : p ∈ encode i) : p.iface = i.iface := by
  cases i with
  | wrstr s =>
    obtain ⟨c, -, rfl⟩ := List.mem_map.mp h
    rfl
  | _ =>
    rw [List.mem_singleton.mp h]
    rfl

/-- Settles O4: each code of `portWord` selects the row it encodes, and the operand byte comes back whole. -/
theorem decodeInvertsEncode : Obligations.DecodeInvertsEncode :=
  fun i => ⟨map_decode_encode i, fun _ => iface_of_mem_encode⟩

/-- Every word on an interface stands for one of that interface's operations (R45). -/
theorem iface_decode (f : Iface) (w : PortWord) : (decode f w).iface = f := by
  obtain h | h | h | h := and_opMask_cases w
  · cases f <;> simp [decode_of_op_zero h, Instr.iface]
  · cases f <;> simp [decode_of_op_one h, Instr.iface]
  · cases f <;> simp [decode_of_op_two h, Instr.iface]
  · cases f <;> simp [decode_of_op_three h, Instr.iface]

/-- Settles O3: a word is one of four rows of its interface's map, and each row is an operation of that interface. -/
theorem eachInterfaceCarriesItsOwnOperations : Obligations.EachInterfaceCarriesItsOwnOperations := by
  intro f w
  simp [Instr.wfOn, iface_decode]

/-- Settles O1: the words are closed, and the decoder evaluates on each. -/
theorem listedWordsDecode : Obligations.ListedWordsDecode := by
  unfold Obligations.ListedWordsDecode
  decide

end Sys2Proof

namespace Sys2Proof.Machine

/-! SUPPORT. The pin events of an operation are the expansion of its byte-level events, and the frames they put before
the controller are those of its transfers (spec/40_bus_transport.md R70, R73). -/

/-- The state an operation answers is the one its lines lead to. -/
theorem perform_of_exec {i : Instr} {s t : State} (h : exec i s = .next t) : perform (opActions i s) s = t := by
  rwa [exec_eq_perform, Host.Outcome.next.injEq] at h

/-- The pin events of the blocks are the expansion of their byte-level events (R62 to R64, R73). -/
theorem Blocks.expands {cfg : Config} {as : List Action} (h : Blocks cfg as) : Expands cfg as := by
  induction h with
  | none | store | bump | resetRow => rfl
  | xfer t b => exact expands_xfer cfg b t
  | settle d => exact expands_settle cfg d
  | append _ _ iha ihb => exact iha.append ihb

/-- The pin events of an operation are the expansion of its byte-level events (R73). -/
theorem expands_opActions (i : Instr) (s : State) : Expands s.cfg (opActions i s) := by
  obtain ⟨-, -, h⟩ | ⟨-, as, has, h⟩ := opActions_blocks i s
  · exact h.expands
  · rw [has]
    exact Expands.append (as := quiesce s.cfg) rfl h.expands

/-- Settles O19: the table is that of `expand`, and the lines of every operation expand. -/
theorem pinTraceExpandsByteTrace : Obligations.PinTraceExpandsByteTrace := by
  refine ⟨fun cfg b d => ⟨rfl, rfl, rfl, rfl, rfl⟩, fun i s => ⟨_, notesOf (opActions i s), exec_eq_perform i s,
    perform_trace _ s, ?_⟩⟩
  rw [perform_pinTrace, expands_opActions]

section frames
variable (cfg : Config) (p : Pins)

/-- The frames of events in sequence: those of the first, then those of the rest from the pins the first leave. -/
theorem framesFrom_append (evs evs' : List PinEvent) :
    framesFrom cfg p (evs ++ evs') = framesFrom cfg p evs ++ framesFrom cfg (evs.foldl Pins.apply p) evs' := by
  induction evs generalizing p with
  | nil => rfl
  | cons ev evs ih => simp [framesFrom, ih]

/-- One transfer puts its own frame before the controller where the lines are driven, and none where they are not
(R49, R70, R119). -/
theorem framesFrom_transfer (t : Tag) (b : Byte) :
    framesFrom cfg p (expand cfg (transferEvent t b)) = if p.oe then [busFrame cfg t b] else [] := by
  have hoff : cfg.eOff ≠ cfg.eOn := Bool.not_ne_self cfg.eOn
  cases t <;> cases hoe : p.oe <;>
    simp [transferEvent, expand, framesFrom, hoe, hoff, busFrame, tagLevel]

/-- A wait and a pulse of the watchdog hook put no frame before the controller. -/
theorem framesFrom_settle (d : Duration) : framesFrom cfg p (pinsOf (settle cfg d)) = [] := by
  cases hw : cfg.wdtEn <;> simp [hw, expand, framesFrom]

/-- No event of a settle wait carries a byte (R49, R63). -/
theorem eventFrame_settle (d : Duration) : (notesOf (settle cfg d)).filterMap (eventFrame cfg) = [] := by
  cases hw : cfg.wdtEn <;> simp [hw, eventFrame]

/-- `quiesce` deasserts the enable line and does not assert it (R64). -/
theorem framesFrom_quiesce : framesFrom cfg p (pinsOf (quiesce cfg)) = [] := by
  have hoff : cfg.eOff ≠ cfg.eOn := Bool.not_ne_self cfg.eOn
  simp [expand, framesFrom, hoff]

variable {cfg}

/-- The frames of the blocks are those of their `C` and `D` events where the lines are driven, and none otherwise. -/
theorem Blocks.frames {as : List Action} (h : Blocks cfg as) :
    framesFrom cfg p (pinsOf as) = if p.oe then (notesOf as).filterMap (eventFrame cfg) else [] := by
  induction h generalizing p with
  | none | store | bump | resetRow => exact (ite_self _).symm
  | xfer t b =>
    rw [pinsOf_xfer, framesFrom_transfer]
    cases t <;> rfl
  | settle d =>
    rw [framesFrom_settle, eventFrame_settle, ite_self]
  | append ha _ iha ihb =>
    rw [pinsOf_append, framesFrom_append, iha, ihb, ha.oe_kept]
    split <;> simp

/-- The frames of an operation: `INIT` and `T.INIT` drive the lines before their first transfer (R16, R70). -/
theorem framesFrom_opActions (i : Instr) (s : State) : framesFrom s.cfg s.pins (pinsOf (opActions i s)) =
    if s.pins.oe = true ∨ i = .init ∨ i = .tInit then (notesOf (opActions i s)).filterMap (eventFrame s.cfg)
    else [] := by
  obtain ⟨hinit, htInit, h⟩ | ⟨hi, as, has, h⟩ := opActions_blocks i s
  · simp [h.frames, hinit, htInit]
  · have hoe : ((pinsOf (quiesce s.cfg)).foldl Pins.apply s.pins).oe = true := rfl
    rw [has, pinsOf_append, framesFrom_append, framesFrom_quiesce, h.frames, hoe, if_pos rfl, if_pos (.inr hi)]
    rfl

end frames

/-- Settles O20: block by block, each transfer gives its frame on driven lines and nothing else gives one. -/
theorem framesAreTheCommandsAndDatas : Obligations.FramesAreTheCommandsAndDatas := by
  intro i s t h
  obtain rfl := perform_of_exec h
  exact ⟨_, _, perform_trace _ s, perform_pinTrace _ s, framesFrom_opActions i s⟩

end Sys2Proof.Machine

namespace Sys2Proof.Machine

/-! SUPPORT. What an operation does to row memory and the cursors, said of the working row and of both rows at once
(spec/41_line_buffer.md R80 to R88). -/

/-- The working row is the primary while its cursor is below 16 (R80). -/
theorem State.workingRow_eq (s : State) : s.workingRow = if s.cur0.toNat < 16 then .primary else .secondary := by
  by_cases h : s.cur0.toNat < 16
  · simp [State.workingRow, (s.rowFull_eq_false_iff .primary).2 h, h]
  · simp [State.workingRow, (s.rowFull_iff .primary).2 (Nat.le_of_not_lt h), h]

theorem State.workingRow_primary {s : State} (h : s.cur0.toNat < 16) : s.workingRow = .primary := by
  rw [s.workingRow_eq, if_pos h]

theorem State.workingRow_secondary {s : State} (h : 16 ≤ s.cur0.toNat) : s.workingRow = .secondary := by
  rw [s.workingRow_eq, if_neg (Nat.not_lt.mpr h)]

/-- The working row is full only when both rows are (R80, R86). -/
theorem State.both_full {s : State} (h : 16 ≤ (s.cur s.workingRow).toNat) :
    16 ≤ s.cur0.toNat ∧ 16 ≤ s.cur1.toNat := by
  by_cases h0 : s.cur0.toNat < 16
  · rw [State.workingRow_primary h0, State.cur_primary] at h
    omega
  · rw [State.workingRow_secondary (Nat.le_of_not_lt h0), State.cur_secondary] at h
    exact ⟨Nat.le_of_not_lt h0, h⟩

/-- A cell lies in the part of a row from index `c` on exactly when it is of that row and its index is at least `c`. -/
theorem cellAddr_mem_range {r q : Row} {c i : Nat} (hi : i < 16) :
    cellAddr q c ≤ cellAddr r i ∧ cellAddr r i < cellAddr q 16 ↔ r = q ∧ c ≤ i := by
  cases r <;> cases q <;> simp [cellAddr, rowIndex] <;> omega

section visible
variable {s : State} {ch : Byte} (hc : charClass s.cfg ch = .visible)
include hc

/-- A visible character on a working row that is not full: one store at its cursor, which goes up by one
(R84, R86). -/
theorem writeChar_put (h : (s.cur s.workingRow).toNat < 16) :
    (writeChar s ch).cells = s.cells.write (cellAddr s.workingRow (s.cur s.workingRow).toNat) ch ∧
    ∀ q, ((writeChar s ch).cur q).toNat = (s.cur q).toNat + if q = s.workingRow then 1 else 0 := by
  cases writeChar_effect s ch with
  | primary _ h0 cells cur0 cur1 =>
    rw [State.workingRow_primary h0]
    exact ⟨cells, fun q => by cases q <;> simp [cur0, cur1]⟩
  | secondary _ h0 _ cells cur0 cur1 =>
    rw [State.workingRow_secondary h0]
    exact ⟨cells, fun q => by cases q <;> simp [cur0, cur1]⟩
  | scroll _ h0 h1 =>
    rw [State.workingRow_secondary h0, State.cur_secondary] at h
    omega
  | inert hc' | padNothing hc' | pad hc' => rw [hc] at hc'; cases hc'

/-- A visible character on a full display: the secondary row's bytes in the primary row, the character alone in the
secondary row, cursors as they were and 1 (R85, R86). -/
theorem writeChar_scroll (h0 : 16 ≤ s.cur0.toNat) (h1 : 16 ≤ s.cur1.toNat) :
    (∀ i < 16, (writeChar s ch).cells.read (cellAddr .primary i) = some (s.cellByte (cellAddr .secondary i))) ∧
    (∀ i < 16, (writeChar s ch).cells.read (cellAddr .secondary i) = if i = 0 then some ch else none) ∧
    (∀ a, 32 ≤ a → (writeChar s ch).cells.read a = s.cells.read a) ∧
    (writeChar s ch).cur0 = s.cur0 ∧ (writeChar s ch).cur1 = 1 := by
  cases writeChar_effect s ch with
  | scroll _ _ _ cells cur0 cur1 =>
    have hzero : 0 < 16 := by decide
    refine ⟨fun i hi => ?_, fun i hi => ?_, fun a ha => ?_, cur0, cur1⟩ <;> rw [cells]
    · simp only [cellAddr_inj hi hzero, inRow_cellAddr _ _ hi]
      simp [cellAddr_primary, hi]
    · simp [cellAddr_inj hi hzero, inRow_cellAddr _ _ hi]
    · have hcell : a ≠ cellAddr .secondary 0 := by rw [cellAddr_secondary]; omega
      have hrow : inRow .secondary a = false := by simp [inRow, cellAddr_secondary]; omega
      simp [hcell, hrow, show ¬ a < 16 by omega]
  | primary _ h | secondary _ _ h => omega
  | inert hc' | padNothing hc' | pad hc' => rw [hc] at hc'; cases hc'

end visible

/-- Both rows gone stale: no cell of the display holds a value, and other addresses are as before (R12, R13). -/
theorem Memory.read_dropRow_both (m : Memory) (a : Nat) :
    ((m.dropRow .primary).dropRow .secondary).read a = if a < 32 then none else m.read a := by
  rw [Memory.read_dropRow, Memory.read_dropRow]
  have hrows : (inRow .secondary a = true ∨ inRow .primary a = true) ↔ a < 32 := by
    simp [inRow, cellAddr, rowIndex]
    omega
  by_cases ha : a < 32
  · rw [if_pos ha]
    obtain h | h := hrows.mpr ha <;> simp [h]
  · have hout : inRow .secondary a = false ∧ inRow .primary a = false := by
      simpa only [← hrows, not_or, Bool.not_eq_true] using ha
    simp [hout, ha]

/-- Lines that write no row, then a reset of both rows (R87, R88). -/
theorem perform_append_resetRows {as : List Action} (s : State) (hw : writesOf as = []) :
    perform (as ++ [.resetRow .primary, .resetRow .secondary]) s = { perform as s with
      cells := (s.cells.dropRow .primary).dropRow .secondary
      cur0 := 0
      cur1 := 0 } := by
  rw [perform_append, perform_of_writesOf_nil s hw]
  rfl

/-- What an operation does to row memory and the cursors, in every state. -/
inductive RowsEffect (i : Instr) (s t : State) : Prop
  /-- `RSVD` and the transport operations (R71, R90). -/
  | unchanged (cells : t.cells = s.cells) (cur : ∀ r, t.cur r = s.cur r)
  /-- `WRCH` and `WRSTR` (R81, R89). -/
  | chars (cs : List Byte) (h : t = cs.foldl writeChar s)
  /-- `INIT` and `CLRS` (R87, R88). -/
  | cleared (hi : i = .init ∨ i = .clrs) (cells : t.cells = (s.cells.dropRow .primary).dropRow .secondary)
      (cur : ∀ r, t.cur r = 0)

section effect
variable (i : Instr) (s : State)

theorem RowsEffect.of_writesOf_nil {as : List Action} (hw : writesOf as = []) : RowsEffect i s (perform as s) := by
  rw [perform_of_writesOf_nil s hw]
  exact .unchanged rfl fun r => by cases r <;> rfl

theorem RowsEffect.of_resetRows {as : List Action} (hi : i = .init ∨ i = .clrs) (hw : writesOf as = []) :
    RowsEffect i s (perform (as ++ [.resetRow .primary, .resetRow .secondary]) s) := by
  rw [perform_append_resetRows s hw]
  exact .cleared hi rfl fun r => by cases r <;> rfl

theorem rowsEffect_opActions : RowsEffect i s (perform (opActions i s) s) := by
  cases i with
  | init => exact .of_resetRows _ s (.inl rfl) (writesOf_tInit s.cfg)
  | wrch ch => exact .chars [ch] rfl
  | clrs => exact .of_resetRows _ s (.inr rfl) (writesOf_tClear s.cfg)
  | rsvd => exact .of_writesOf_nil _ s rfl
  | wrstr cs => exact .chars cs (perform_wrstrLines cs s)
  | tInit | tCmd | tData | tClear => exact .of_writesOf_nil _ s (writesOf_opActions_of_transport rfl s)

end effect

/-- A property that every character keeps is kept by a string of them (R89). -/
theorem foldl_writeChar_keeps {P : State → Prop} (h : ∀ s ch, P s → P (writeChar s ch)) (cs : List Byte)
    {s : State} (hs : P s) : P (cs.foldl writeChar s) :=
  List.foldlRecOn cs writeChar hs fun t ht ch _ => h t ch ht

end Sys2Proof.Machine

namespace Sys2Proof.Machine

/-! SUPPORT. Every step keeps the invariant of the states between two operations, part by part: cursors, cells, pins,
traces (spec/10_state.md R12, R14, R24, spec/41_line_buffer.md R91). -/

section cursors
variable {s t : State}

theorem State.CursorsOk.of_cur_eq (h : s.CursorsOk) (hcur : ∀ r, t.cur r = s.cur r) : t.CursorsOk := by
  have h0 : t.cur0 = s.cur0 := hcur .primary
  have h1 : t.cur1 = s.cur1 := hcur .secondary
  obtain ⟨hle0, hle1, hafter⟩ := h
  rw [← h0, ← h1] at *
  exact ⟨hle0, hle1, hafter⟩

theorem State.CursorsOk.of_cur_zero (h : ∀ r, t.cur r = 0) : t.CursorsOk := by
  have h0 : t.cur0.toNat = 0 := congrArg BitVec.toNat (h .primary)
  have h1 : t.cur1.toNat = 0 := congrArg BitVec.toNat (h .secondary)
  exact ⟨by omega, by omega, by omega⟩

/-- A character keeps both cursors in 0..16, and takes the secondary row only once the primary is full (R91). -/
theorem State.CursorsOk.after_writeChar (h : s.CursorsOk) (ch : Byte) : (writeChar s ch).CursorsOk := by
  obtain ⟨hle0, hle1, hafter⟩ := h
  cases writeChar_effect s ch with
  | inert _ ht | padNothing _ _ ht => rw [ht]; exact ⟨hle0, hle1, hafter⟩
  | pad _ _ _ cur =>
    have cur0 := cur .primary
    have cur1 := cur .secondary
    by_cases h0 : s.cur0.toNat < 16
    · simp only [State.workingRow_primary h0, State.cur_primary, State.cur_secondary, reduceCtorEq, if_true,
        if_false] at cur0 cur1
      exact ⟨by omega, by omega, by omega⟩
    · simp only [State.workingRow_secondary (Nat.le_of_not_lt h0), State.cur_primary, State.cur_secondary,
        reduceCtorEq, if_true, if_false] at cur0 cur1
      exact ⟨by omega, by omega, by omega⟩
  | primary _ h0 _ cur0 cur1 =>
    rw [← cur1] at hle1 hafter
    exact ⟨by omega, hle1, by omega⟩
  | secondary _ h0 h1 _ cur0 cur1 =>
    rw [← cur0] at hle0 h0
    exact ⟨hle0, by omega, by omega⟩
  | scroll _ h0 _ _ cur0 cur1 =>
    rw [← cur0] at hle0 h0
    exact ⟨hle0, by rw [cur1]; decide, by omega⟩

theorem State.CursorsOk.after_operation (h : s.CursorsOk) (i : Instr) : (perform (opActions i s) s).CursorsOk := by
  cases rowsEffect_opActions i s with
  | unchanged _ cur => exact h.of_cur_eq cur
  | chars cs hcs => rw [hcs]; exact foldl_writeChar_keeps (fun u ch hu => hu.after_writeChar ch) cs h
  | cleared _ _ cur => exact .of_cur_zero cur

/-- An idle core with no word presented holds everything, and one with a word performs the lines of its operation. -/
theorem step_idle_cases (hb : s.busy = false) (h : step s = .next t) :
    t = s ∨ ∃ i rest, t = perform (opActions i { s with script := rest }) { s with script := rest } := by
  cases hs : s.script with
  | nil =>
    rw [step_of_no_word hb hs, Host.Outcome.next.injEq] at h
    exact .inl h.symm
  | cons p rest =>
    rw [step_of_word hb hs] at h
    exact .inr ⟨_, rest, (perform_of_exec h).symm⟩

end cursors

/-- Settles O41: a step of an idle core runs at most one operation, whose effect on the cursors is known row by row. -/
theorem stepKeepsTheCursorInvariant : Obligations.StepKeepsTheCursorInvariant := by
  refine ⟨fun cfg => .of_cur_zero fun r => by cases r <;> rfl, fun s t hb hs ht => ?_⟩
  obtain rfl | ⟨i, rest, rfl⟩ := step_idle_cases hb ht
  · exact ⟨hs, hb⟩
  · exact ⟨(hs.of_cur_eq (t := { s with script := rest }) fun r => by cases r <;> rfl).after_operation i,
      (perform_busy _ _).trans hb⟩

section cells
variable {s : State} {ch : Byte}

/-- Lines that store into the 32 cells only keep row memory in canonical form (R31). -/
theorem perform_wf {as : List Action} (h : ∀ a v, .store a v ∈ as → a < 32) (hm : s.cells.wf = true) :
    (perform as s).cells.wf = true := by
  induction as generalizing s with
  | nil => exact hm
  | cons x as ih =>
    refine ih (fun a v ha => h a v (.tail _ ha)) ?_
    cases x with
    | pin | note => exact hm
    | store a v => exact Memory.wf_write v hm (h a v (.head _))
    | bump r => rwa [Action.run_bump, State.setCur_cells]
    | resetRow r => exact Memory.wf_dropRow r hm

/-- The lines of `WRCH` store into the 32 cells only, in every state (R83 to R86). -/
theorem store_mem_writesOf_wrch {a : Nat} {v : Byte} (h : .store a v ∈ writesOf (wrchActions ch s)) : a < 32 := by
  cases hc : charClass s.cfg ch with
  | carriageReturn => rw [wrchActions_carriageReturn s ch hc] at h; cases h
  | newline =>
    rw [wrchActions_newline s ch hc, writesOf_pad] at h
    obtain ⟨i, hi, h⟩ := List.mem_flatMap.mp h
    have hlt : i < 16 := by
      rw [List.mem_range'_1] at hi
      omega
    obtain ⟨rfl, -⟩ : a = cellAddr s.workingRow i ∧ v = s.cfg.chSpace := by simpa using h
    exact cellAddr_lt _ hlt
  | visible =>
    by_cases h0 : s.cur0.toNat < 16
    · rw [wrchActions_primary s ch hc h0, writesOf_putPrimary] at h
      obtain ⟨rfl, -⟩ : a = cellAddr .primary s.cur0.toNat ∧ v = ch := by simpa using h
      exact cellAddr_lt _ h0
    · rw [wrchActions_secondary s ch hc (Nat.le_of_not_lt h0)] at h
      by_cases h1 : s.cur1.toNat < 16
      · rw [writesOf_putSecondary s ch h1] at h
        obtain ⟨rfl, -⟩ : a = cellAddr .secondary s.cur1.toNat ∧ v = ch := by simpa using h
        exact cellAddr_lt _ h1
      · rw [writesOf_putSecondary_scroll s ch (Nat.le_of_not_lt h1)] at h
        obtain h | h := List.mem_append.mp h
        · obtain ⟨i, hi, h⟩ := List.mem_flatMap.mp h
          obtain ⟨rfl, -⟩ := Action.store.inj (List.mem_singleton.mp h)
          exact cellAddr_lt _ (List.mem_range.mp hi)
        · obtain ⟨rfl, -⟩ : a = cellAddr .secondary 0 ∧ v = ch := by simpa using h
          decide

theorem writeChar_wf (hm : s.cells.wf = true) (ch : Byte) : (writeChar s ch).cells.wf = true := by
  rw [writeChar, perform_cells]
  exact perform_wf (fun _ _ => store_mem_writesOf_wrch) hm

/-- In a state of the invariant a character gives a value to exactly the cells that become valid (R12, R92). -/
theorem State.CellsOk.after_writeChar (h : s.CellsOk) (hcur : s.CursorsOk) (ch : Byte) : (writeChar s ch).CellsOk := by
  refine ⟨writeChar_wf h.canonical ch, fun r i hi => ?_⟩
  have hold := h.valued_iff_valid r i hi
  cases hc : charClass s.cfg ch with
  | carriageReturn => rwa [writeChar, wrchActions_carriageReturn s ch hc]
  | newline =>
    obtain ⟨cur, cells⟩ := writeChar_newline_pads s hc (hcur.cur_le _)
    rw [cells, cur, if_congr (cellAddr_mem_range hi) rfl rfl]
    by_cases hr : r = s.workingRow
    · by_cases hle : (s.cur s.workingRow).toNat ≤ i
      · simp [hr, hle, hi]
      · rw [hr] at hold ⊢
        simp [hle, hold, hi]
        omega
    · simpa [hr] using hold
  | visible =>
    by_cases hfull : (s.cur s.workingRow).toNat < 16
    · obtain ⟨cells, cur⟩ := writeChar_put hc hfull
      rw [cells, cur, Memory.read_write, if_congr (cellAddr_inj hi hfull) rfl rfl]
      by_cases hr : r = s.workingRow
      · by_cases heq : i = (s.cur s.workingRow).toNat
        · simp [hr, heq]
        · rw [hr] at hold ⊢
          simp [heq, hold]
          omega
      · simpa [hr] using hold
    · obtain ⟨h0, h1⟩ := State.both_full (Nat.le_of_not_lt hfull)
      obtain ⟨primary, secondary, -, cur0, cur1⟩ := writeChar_scroll hc h0 h1
      cases r with
      | primary => simp [primary i hi, cur0]; omega
      | secondary =>
        have hone : (1 : Cursor).toNat = 1 := rfl
        rw [secondary i hi, State.cur_secondary, cur1, hone]
        by_cases hi0 : i = 0 <;> simp [hi0]

theorem State.CellsOk.after_operation (h : s.CellsOk) (hcur : s.CursorsOk) (i : Instr) :
    (perform (opActions i s) s).CellsOk := by
  cases rowsEffect_opActions i s with
  | unchanged cells cur => exact ⟨cells ▸ h.canonical, by simpa only [cells, cur] using h.valued_iff_valid⟩
  | chars cs hcs =>
    rw [hcs]
    exact (foldl_writeChar_keeps (P := fun u => u.CursorsOk ∧ u.CellsOk)
      (fun u ch hu => ⟨hu.1.after_writeChar ch, hu.2.after_writeChar hu.1 ch⟩) cs ⟨hcur, h⟩).2
  | cleared _ cells cur =>
    refine ⟨by rw [cells]; exact Memory.wf_dropRow _ (Memory.wf_dropRow _ h.canonical), fun r j hj => ?_⟩
    simp [cells, cur, Memory.read_dropRow_both, cellAddr_lt r hj]

end cells

section pins
variable {s : State} (i : Instr)

/-- Every byte-level event's pin events leave the write line in write mode and the enable line deasserted, where they
were so before (R14, R62 to R64). -/
theorem foldl_expand_atRest {cfg : Config} (evs : List ByteEvent) {p : Pins}
    (h : p.rw = cfg.rwWrite ∧ p.e = cfg.eOff) :
    ((evs.flatMap (expand cfg)).foldl Pins.apply p).rw = cfg.rwWrite ∧
    ((evs.flatMap (expand cfg)).foldl Pins.apply p).e = cfg.eOff := by
  induction evs generalizing p with
  | nil => exact h
  | cons ev evs ih =>
    rw [List.flatMap_cons, List.foldl_append]
    refine ih ?_
    cases ev with
    | c | d | q => exact ⟨rfl, rfl⟩
    | w | k => exact h

theorem State.PinsAtRest.after_operation (h : s.PinsAtRest) : (perform (opActions i s) s).PinsAtRest := by
  have hrest := foldl_expand_atRest (notesOf (opActions i s)) ⟨h.write_mode, h.enable_off⟩
  rw [← expands_opActions, ← perform_pins] at hrest
  exact ⟨by rw [perform_cfg, hrest.1], by rw [perform_cfg, hrest.2]⟩

theorem State.TracesOk.after_operation (h : s.TracesOk) : (perform (opActions i s) s).TracesOk where
  expansion := by
    rw [perform_pinTrace, perform_trace, perform_cfg, List.flatMap_append, ← expands_opActions, h.expansion]
  replay := by
    rw [perform_pins, perform_pinTrace, perform_cfg, List.foldl_append, ← h.replay]

/-- Every operation keeps every part of the invariant. -/
theorem State.Inv.after_operation (h : s.Inv) : (perform (opActions i s) s).Inv where
  cursors := h.cursors.after_operation i
  cells := h.cells.after_operation h.cursors i
  rest := h.rest.after_operation i
  traces := h.traces.after_operation i
  idle := ⟨(perform_busy _ _).trans h.idle.not_busy, (perform_seq _ _).trans h.idle.no_line_left⟩

/-- The words still to be presented are no part of the invariant. -/
theorem State.Inv.withScript (h : s.Inv) (ps : List Presented) : State.Inv { s with script := ps } :=
  ⟨⟨h.cursors.1, h.cursors.2, h.cursors.3⟩, ⟨h.cells.1, fun r => by cases r <;> exact h.cells.2 _⟩,
    ⟨h.rest.1, h.rest.2⟩, ⟨h.traces.1, h.traces.2⟩, ⟨h.idle.1, h.idle.2⟩⟩

end pins

/-- Settles O42: a state of the invariant is idle, so a step runs at most one operation, which keeps it. -/
theorem stepKeepsTheInvariant : Obligations.StepKeepsTheInvariant := by
  intro s t hs ht
  obtain rfl | ⟨i, rest, rfl⟩ := step_idle_cases hs.idle.not_busy ht
  · exact hs
  · exact (hs.withScript rest).after_operation i

/-- Settles O43: no cell holds a value and none is valid, and both traces are empty. -/
theorem resetMeetsTheInvariant : Obligations.ResetMeetsTheInvariant := by
  intro cfg
  have hcur (r : Row) : (State.resetOf cfg).cur r = 0 := by cases r <;> rfl
  exact {
    cursors := .of_cur_zero hcur
    cells := ⟨Memory.wf_nil, fun r i _ => by rw [hcur r]; simp [State.resetOf]⟩
    rest := ⟨rfl, rfl⟩
    traces := ⟨rfl, rfl⟩
    idle := ⟨rfl, rfl⟩ }

end Sys2Proof.Machine

namespace Sys2Proof.Machine

/-! SUPPORT. Stale cells have no effect: two states that differ in them only go through the same lines
(spec/41_line_buffer.md R92, spec/70_reset_and_hazards.md R128). -/

theorem Action.run_withCells (a : Action) (s : State) (m : Memory) :
    ∃ m', a.run { s with cells := m } = { a.run s with cells := m' } := by
  cases a with
  | pin | note | store => exact ⟨_, rfl⟩
  | bump r | resetRow r => cases r <;> exact ⟨_, rfl⟩

/-- The bytes of row memory decide nothing but the bytes of row memory. -/
theorem perform_withCells (as : List Action) (s : State) (m : Memory) :
    ∃ m', perform as { s with cells := m } = { perform as s with cells := m' } := by
  induction as generalizing s m with
  | nil => exact ⟨m, rfl⟩
  | cons a as ih =>
    obtain ⟨m', h⟩ := a.run_withCells s m
    rw [perform_cons, h]
    exact ih (a.run s) m'

/-- A newline on a working row whose cursor is beyond 16 does nothing (R83; log 16). -/
theorem writeChar_newline_full {s : State} {ch : Byte} (hc : charClass s.cfg ch = .newline)
    (hr : 16 < (s.cur s.workingRow).toNat) : writeChar s ch = s := by
  cases writeChar_effect s ch with
  | inert _ h | padNothing _ _ h => exact h
  | pad _ hr' => omega
  | primary hc' | secondary hc' | scroll hc' => rw [hc] at hc'; cases hc'

section agree
variable {s s' : State} (h : s.AgreeOnValid s')
include h

theorem State.AgreeOnValid.cfg_eq : s.cfg = s'.cfg := by rw [h.rest]

theorem State.AgreeOnValid.cur_eq (r : Row) : s.cur r = s'.cur r := by
  rw [h.rest]
  cases r <;> rfl

theorem State.AgreeOnValid.workingRow_eq : s.workingRow = s'.workingRow := by
  rw [h.rest]
  rfl

/-- Lines performed from both states leave them equal but for row memory. -/
theorem State.AgreeOnValid.perform_rest (as : List Action) :
    perform as s = { perform as s' with cells := (perform as s).cells } := by
  obtain ⟨m, hm⟩ := perform_withCells as s' s.cells
  rw [← h.rest] at hm
  rw [hm]

/-- Lines that write no row leave the valid cells as they were. -/
theorem State.AgreeOnValid.perform_of_writesOf_nil {as : List Action} (hw : writesOf as = []) :
    (perform as s).AgreeOnValid (perform as s') := by
  refine ⟨h.perform_rest as, fun r i hi hv => ?_⟩
  rw [perform_cur, hw] at hv
  rw [perform_cells, perform_cells as, hw]
  exact h.valid r i hi hv

/-- A reset of both rows leaves no valid cell. -/
theorem State.AgreeOnValid.perform_resetRows (as : List Action) :
    (perform (as ++ [.resetRow .primary, .resetRow .secondary]) s).AgreeOnValid
      (perform (as ++ [.resetRow .primary, .resetRow .secondary]) s') := by
  refine ⟨h.perform_rest _, fun r i hi hv => ?_⟩
  rw [perform_append] at hv
  cases r <;> exact absurd hv (Nat.not_lt_zero i)

/-- In a full secondary row every cell is valid, so a rule's read of one delivers the same byte (R92). -/
theorem State.AgreeOnValid.cellByte_eq (h1 : 16 ≤ s'.cur1.toNat) (i : Nat) (hi : i < 16) :
    s.cellByte (cellAddr .secondary i) = s'.cellByte (cellAddr .secondary i) := by
  have hvalid : i < (s.cur .secondary).toNat := by
    rw [h.cur_eq, State.cur_secondary]
    omega
  rw [State.cellByte, State.cellByte, h.valid .secondary i hi hvalid]

/-- The scroll-up of a full secondary row has the same lines in both states (R85). -/
theorem State.AgreeOnValid.scrollUpActions_eq (h1 : 16 ≤ s'.cur1.toNat) : scrollUpActions s = scrollUpActions s' := by
  have hbytes := h.cellByte_eq h1
  simp only [scrollUpActions, h.cfg_eq]
  congr 6
  exact List.flatMap_congr fun i hi => by rw [hbytes i (List.mem_range.mp hi)]

/-- The lines of `WRCH` are the same: a rule reads cells in scroll-up alone, where the secondary row is full and each
of its cells is valid (R85, R92). -/
theorem State.AgreeOnValid.wrchActions_eq (ch : Byte) : wrchActions ch s = wrchActions ch s' := by
  have hscroll : (if s.rowFull .secondary then scrollUpActions s else []) =
      if s'.rowFull .secondary then scrollUpActions s' else [] := by
    have hfull : s.rowFull .secondary = s'.rowFull .secondary := by rw [State.rowFull, h.cur_eq, State.rowFull]
    rw [hfull]
    exact ite_congr rfl (fun hs => h.scrollUpActions_eq ((s'.rowFull_iff .secondary).1 hs)) fun _ => rfl
  have hsecondary : putSecondaryActions ch s = putSecondaryActions ch s' := by
    rw [putSecondaryActions, hscroll, h.rest]
    rfl
  rw [wrchActions, hsecondary, h.rest]
  rfl

section character
variable {ch : Byte} {r : Row} {i : Nat} (hi : i < 16) (hv : i < ((writeChar s ch).cur r).toNat)
include hi hv

/-- After a newline a valid cell was valid before or holds a space (R83). -/
theorem State.AgreeOnValid.read_newline (hc : charClass s.cfg ch = .newline) :
    (writeChar s ch).cells.read (cellAddr r i) = (writeChar s' ch).cells.read (cellAddr r i) := by
  have hc' : charClass s'.cfg ch = .newline := h.cfg_eq ▸ hc
  by_cases hr : (s.cur s.workingRow).toNat ≤ 16
  · obtain ⟨cur, cells⟩ := writeChar_newline_pads s hc hr
    obtain ⟨-, cells'⟩ := writeChar_newline_pads s' hc' (by rwa [← h.workingRow_eq, ← h.cur_eq])
    rw [cells, cells', ← h.workingRow_eq, ← h.cur_eq, h.cfg_eq, if_congr (cellAddr_mem_range hi) rfl rfl,
      if_congr (cellAddr_mem_range hi) rfl rfl]
    split_ifs with hnew
    · rfl
    · refine h.valid r i hi ?_
      rw [cur] at hv
      split at hv
      · subst_vars
        simpa using hnew
      · exact hv
  · rw [writeChar_newline_full hc (Nat.lt_of_not_le hr)] at hv ⊢
    rw [writeChar_newline_full hc' (by rwa [← h.workingRow_eq, ← h.cur_eq, ← Nat.not_le])]
    exact h.valid r i hi hv

variable (hc : charClass s.cfg ch = .visible)
include hc

/-- After a character that fits its row a valid cell was valid before or holds the character (R84, R86). -/
theorem State.AgreeOnValid.read_put (hroom : (s.cur s.workingRow).toNat < 16) :
    (writeChar s ch).cells.read (cellAddr r i) = (writeChar s' ch).cells.read (cellAddr r i) := by
  have hc' : charClass s'.cfg ch = .visible := h.cfg_eq ▸ hc
  obtain ⟨cells, cur⟩ := writeChar_put hc hroom
  obtain ⟨cells', -⟩ := writeChar_put hc' (by rwa [← h.workingRow_eq, ← h.cur_eq])
  rw [cells, cells', ← h.workingRow_eq, ← h.cur_eq, Memory.read_write, Memory.read_write,
    if_congr (cellAddr_inj hi hroom) rfl rfl, if_congr (cellAddr_inj hi hroom) rfl rfl]
  split_ifs with hnew
  · rfl
  · refine h.valid r i hi ?_
    rw [cur] at hv
    split at hv
    · subst_vars
      have hne : i ≠ (s.cur s.workingRow).toNat := by simpa using hnew
      omega
    · exact hv

omit hv in
/-- After a scroll-up every cell holds what was read from a valid cell, the character, or nothing (R85, R86). -/
theorem State.AgreeOnValid.read_scroll (hfull : 16 ≤ (s.cur s.workingRow).toNat) :
    (writeChar s ch).cells.read (cellAddr r i) = (writeChar s' ch).cells.read (cellAddr r i) := by
  have hc' : charClass s'.cfg ch = .visible := h.cfg_eq ▸ hc
  obtain ⟨h0, h1⟩ := State.both_full hfull
  obtain ⟨primary, secondary, -⟩ := writeChar_scroll hc h0 h1
  rw [← State.cur_primary, h.cur_eq] at h0
  rw [← State.cur_secondary, h.cur_eq] at h1
  obtain ⟨primary', secondary', -⟩ := writeChar_scroll hc' h0 h1
  cases r with
  | primary => rw [primary i hi, primary' i hi, h.cellByte_eq h1 i hi]
  | secondary => rw [secondary i hi, secondary' i hi]

end character

/-- A character gives a cell that becomes valid the same byte in both states (R92). -/
theorem State.AgreeOnValid.after_writeChar (ch : Byte) : (writeChar s ch).AgreeOnValid (writeChar s' ch) := by
  have hrest : writeChar s ch = { writeChar s' ch with cells := (writeChar s ch).cells } := by
    rw [writeChar, writeChar, ← h.wrchActions_eq ch]
    exact h.perform_rest _
  refine ⟨hrest, fun r i hi hv => ?_⟩
  cases hc : charClass s.cfg ch with
  | carriageReturn =>
    have hc' : charClass s'.cfg ch = .carriageReturn := h.cfg_eq ▸ hc
    rw [writeChar, wrchActions_carriageReturn s ch hc] at hv ⊢
    rw [writeChar, wrchActions_carriageReturn s' ch hc']
    exact h.valid r i hi hv
  | newline => exact h.read_newline hi hv hc
  | visible =>
    by_cases hroom : (s.cur s.workingRow).toNat < 16
    · exact h.read_put hi hv hc hroom
    · exact h.read_scroll hi hc (Nat.le_of_not_lt hroom)

/-- Every operation leads from states that agree on valid cells to states that do (R128). -/
theorem State.AgreeOnValid.after_operation (i : Instr) :
    (perform (opActions i s) s).AgreeOnValid (perform (opActions i s') s') := by
  have hcfg := h.cfg_eq
  cases i with
  | init =>
    simp only [opActions, initActions, ← hcfg]
    exact h.perform_resetRows _
  | wrch ch => exact h.after_writeChar ch
  | clrs =>
    simp only [opActions, clrsActions, ← hcfg]
    exact h.perform_resetRows _
  | rsvd => exact h
  | wrstr cs =>
    simp only [opActions, perform_wrstrLines]
    induction cs generalizing s s' with
    | nil => exact h
    | cons c cs ih => exact ih (h.after_writeChar c) (h.after_writeChar c).cfg_eq
  | tInit | tCmd | tData | tClear =>
    simp only [opActions, ← hcfg]
    exact h.perform_of_writesOf_nil (by simp)

end agree

/-- Settles O44: only `WRCH` and `WRSTR` depend on a cell, and character by character the valid cells stay equal. -/
theorem staleCellsAreNeverRead : Obligations.StaleCellsAreNeverRead := by
  intro i s s' t hagree ht
  obtain rfl := perform_of_exec ht
  exact ⟨_, exec_eq_perform i s', hagree.after_operation i⟩

end Sys2Proof.Machine

namespace Sys2Proof.Machine

/-! SUPPORT. The rows after `INIT` and `CLRS`, after a character on the secondary row, and after a string on a fresh row
(spec/41_line_buffer.md R80 to R93). -/

section clear
variable (as : List Action) (s : State)

/-- A reset of both rows at the end of an operation changes row memory and the cursors only (R87, R88). -/
theorem perform_append_resetRows_frame : perform (as ++ [.resetRow .primary, .resetRow .secondary]) s =
    { perform as s with
      cells := (perform (as ++ [.resetRow .primary, .resetRow .secondary]) s).cells
      cur0 := 0
      cur1 := 0 } := by
  rw [perform_append]
  rfl

/-- After lines that write no row and a reset of both rows, no cell of the display holds a value (R12, R87, R88). -/
theorem perform_append_resetRows_cells {as : List Action} (hw : writesOf as = []) :
    (∀ r, ∀ i < 16,
      (perform (as ++ [.resetRow .primary, .resetRow .secondary]) s).cells.read (cellAddr r i) = none) ∧
    ∀ a, 32 ≤ a →
      (perform (as ++ [.resetRow .primary, .resetRow .secondary]) s).cells.read a = s.cells.read a := by
  rw [perform_append_resetRows s hw]
  exact ⟨fun r i hi => (Memory.read_dropRow_both _ _).trans (if_pos (cellAddr_lt r hi)),
    fun a ha => (Memory.read_dropRow_both _ _).trans (if_neg (Nat.not_lt.mpr ha))⟩

end clear

/-- Settles O32: the lines of `INIT` are those of `T.INIT`, which write no row, and the reset of both rows. -/
theorem initStartsTheDisplay : Obligations.InitStartsTheDisplay :=
  fun s => ⟨_, _, exec_eq_perform .init s, exec_eq_perform .tInit s,
    perform_append_resetRows_frame (tInitActions s.cfg) s, perform_append_resetRows_cells s (writesOf_tInit s.cfg)⟩

/-- Settles O33: the lines of `CLRS` are those of `T.CLEAR`, which write no row, and the reset of both rows. -/
theorem clearScreenEmptiesBothRows : Obligations.ClearScreenEmptiesBothRows :=
  fun s => ⟨_, _, exec_eq_perform .clrs s, exec_eq_perform .tClear s,
    perform_append_resetRows_frame (tClearActions s.cfg) s, perform_append_resetRows_cells s (writesOf_tClear s.cfg)⟩

section secondary
variable (s : State) (ch : Byte)

/-- The events of a character on a secondary row that is not full (R86). -/
theorem notesOf_putSecondary_room (h1 : s.cur1.toNat < 16) : notesOf (putSecondaryActions ch s) =
    (if s.rowFresh .secondary then [.c s.cfg.cmdRow2] else []) ++ [.d ch] := by
  rw [notesOf_putSecondary, (s.rowFull_eq_false_iff .secondary).2 h1]
  simp

/-- The events of a character on a full display: those of the scroll-up, then its data byte (R85, R86). -/
theorem notesOf_putSecondary_scroll (h1 : 16 ≤ s.cur1.toNat) : notesOf (putSecondaryActions ch s) =
    notesOf (scrollUpActions s) ++ [.d ch] := by
  have hfresh : s.rowFresh .secondary = false := by
    rw [s.rowFresh_eq_false_iff, State.cur_secondary]
    omega
  rw [notesOf_putSecondary, (s.rowFull_iff .secondary).2 h1, hfresh]
  simp

end secondary

/-- Settles O30: on a secondary row that is not full the writing lines are one store and one increment, and the events
are the row move of a fresh row and the data byte. -/
theorem visibleCharacterFillsTheSecondaryRow : Obligations.VisibleCharacterFillsTheSecondaryRow := by
  intro ch s hclass h0 h1
  have hwrite := writeChar_visible s ch hclass
  rw [wrchActions_secondary s ch hclass h0, writesOf_putSecondary s ch h1, notesOf_putSecondary_room s ch h1] at hwrite
  exact ⟨_, _, congrArg Host.Outcome.next hwrite, rowMove_append_data s ch .secondary s.cfg.cmdRow2, rfl,
    fun a => Memory.read_write s.cells _ a ch⟩

/-- Settles O31: the scroll-up reads cells that all hold a value, and `writeChar_scroll` says what the rows hold
afterwards. -/
theorem fullDisplayScrollsUp : Obligations.FullDisplayScrollsUp := by
  intro ch s old hclass h0 h1 hold
  have hbyte : ∀ i < 16, s.cellByte (cellAddr .secondary i) = old i := fun i hi => by
    rw [State.cellByte, hold i hi, Option.getD_some]
  have hcopy : (List.range 16).map (fun i => ByteEvent.d (s.cellByte (cellAddr .secondary i))) =
      (List.range 16).map fun i => .d (old i) :=
    List.map_congr_left fun i hi => by rw [hbyte i (List.mem_range.mp hi)]
  obtain ⟨primary, secondary, outside, cur0, cur1⟩ := writeChar_scroll hclass h0 h1
  have hwrite := writeChar_visible s ch hclass
  rw [← perform_cells, ← perform_cur0, ← perform_cur1, ← writeChar, cur0, cur1,
    wrchActions_secondary s ch hclass h0, notesOf_putSecondary_scroll s ch h1, notesOf_scrollUp, hcopy] at hwrite
  refine ⟨writeChar s ch, _, rfl, ?events, hwrite, fun i hi => ?copied, secondary, outside⟩
  case events => simp
  case copied => rw [primary i hi, hbyte i hi]

/-- The row move that a character on row `r` begins with (R84, R86). -/
def rowMove (s : State) (r : Row) : List ByteEvent :=
  if (s.cur r).toNat = 0 then [.c (if r = .primary then s.cfg.cmdRow1 else s.cfg.cmdRow2)] else []

/-- The events of a visible character on a working row that is not full (R84, R86). -/
theorem notesOf_wrch_put {s : State} {ch : Byte} (hc : charClass s.cfg ch = .visible)
    (h : (s.cur s.workingRow).toNat < 16) :
    notesOf (wrchActions ch s) = rowMove s s.workingRow ++ [.d ch] := by
  by_cases h0 : s.cur0.toNat < 16
  · rw [wrchActions_primary s ch hc h0, notesOf_putPrimary, State.workingRow_primary h0, rowMove]
    simp only [s.rowFresh_iff]
    rfl
  · rw [State.workingRow_secondary (Nat.le_of_not_lt h0)] at h ⊢
    rw [wrchActions_secondary s ch hc (Nat.le_of_not_lt h0), notesOf_putSecondary_room s ch h, rowMove]
    simp only [s.rowFresh_iff]
    rfl

/-- A character that does not fill the working row leaves it the working row (R80). -/
theorem workingRow_writeChar_put {s : State} {ch : Byte} (hc : charClass s.cfg ch = .visible)
    (h : (s.cur s.workingRow).toNat + 1 < 16) : (writeChar s ch).workingRow = s.workingRow := by
  obtain ⟨-, cur⟩ := writeChar_put hc (Nat.lt_of_succ_lt h)
  have hcur0 := cur .primary
  by_cases h0 : s.cur0.toNat < 16
  · rw [State.workingRow_primary h0] at h hcur0 ⊢
    rw [if_pos rfl] at hcur0
    exact State.workingRow_primary (by rwa [← State.cur_primary, hcur0])
  · rw [State.workingRow_secondary (Nat.le_of_not_lt h0)] at hcur0 ⊢
    rw [if_neg nofun] at hcur0
    exact State.workingRow_secondary (by rwa [← State.cur_primary, hcur0, ← Nat.not_lt])

/-- A string of visible characters that fits the working row: the row move of a fresh row and its bytes as data, its
bytes in the row's cells from the cursor on, the cursor counting them, and nothing else written (R84, R86, R93). -/
theorem foldl_writeChar_fits (r : Row) (cs : List Byte) (s : State)
    (hvis : ∀ ch ∈ cs, charClass s.cfg ch = .visible) (hrow : cs ≠ [] → s.workingRow = r)
    (hfit : (s.cur r).toNat + cs.length ≤ 16) :
    (cs.foldl writeChar s).trace = s.trace ++ (if cs = [] then [] else rowMove s r) ++ cs.map .d ∧
    (∀ q, ((cs.foldl writeChar s).cur q).toNat = (s.cur q).toNat + if q = r then cs.length else 0) ∧
    (∀ i < cs.length, (cs.foldl writeChar s).cells.read (cellAddr r ((s.cur r).toNat + i)) = cs[i]?) ∧
    (∀ a, a < cellAddr r (s.cur r).toNat ∨ cellAddr r ((s.cur r).toNat + cs.length) ≤ a →
      (cs.foldl writeChar s).cells.read a = s.cells.read a) := by
  induction cs generalizing s with
  | nil => simp
  | cons c cs ih =>
    obtain rfl := hrow (List.cons_ne_nil c cs)
    rw [List.length_cons] at hfit
    have hc := hvis c List.mem_cons_self
    have hroom : (s.cur s.workingRow).toNat < 16 := by omega
    obtain ⟨cells, cur⟩ := writeChar_put hc hroom
    have htrace : (writeChar s c).trace = s.trace ++ (rowMove s s.workingRow ++ [.d c]) := by
      rw [writeChar, perform_trace, notesOf_wrch_put hc hroom]
    have hcur : ((writeChar s c).cur s.workingRow).toNat = (s.cur s.workingRow).toNat + 1 := by
      rw [cur, if_pos rfl]
    have hcfg : (writeChar s c).cfg = s.cfg := perform_cfg _ _
    obtain ⟨ihTrace, ihCur, ihCells, ihFrame⟩ := ih (writeChar s c)
      (fun ch hch => by rw [hcfg]; exact hvis ch (.tail _ hch))
      (fun hne => workingRow_writeChar_put hc (by have := List.length_pos_iff.mpr hne; omega))
      (by omega)
    have hnoMove : rowMove (writeChar s c) s.workingRow = [] := by rw [rowMove, hcur]; exact if_neg (Nat.succ_ne_zero _)
    refine ⟨?trace, fun q => ?cursor, fun i hi => ?cell, fun a ha => ?frame⟩
    case trace =>
      rw [List.foldl_cons, ihTrace, hnoMove, ite_self, htrace, if_neg (List.cons_ne_nil c cs)]
      simp
    case cursor =>
      rw [List.foldl_cons, ihCur, cur, List.length_cons]
      split <;> omega
    case cell =>
      rw [List.foldl_cons]
      cases i with
      | zero =>
        rw [ihFrame _ (.inl ?_), cells, Nat.add_zero, Memory.read_write_same]
        · rfl
        · rw [hcur, cellAddr, cellAddr]; omega
      | succ i =>
        have hi' := ihCells i (by simpa using hi)
        rwa [hcur, Nat.add_right_comm, Nat.add_assoc] at hi'
    case frame =>
      rw [List.length_cons, cellAddr, cellAddr] at ha
      rw [List.foldl_cons, ihFrame a (by rw [hcur, cellAddr, cellAddr]; omega), cells,
        Memory.read_write_other _ _ (by rw [cellAddr]; omega)]

/-- Settles O36: the string fits the working row, whose cursor is 0. -/
theorem freshRowHoldsWhatWasSent : Obligations.FreshRowHoldsWhatWasSent := by
  intro cs s hne hlen hvis hfresh
  have hzero : (s.cur s.workingRow).toNat = 0 := congrArg BitVec.toNat hfresh
  obtain ⟨htrace, hcur, hcells, hframe⟩ := foldl_writeChar_fits s.workingRow cs s hvis (fun _ => rfl) (by omega)
  rw [if_neg hne, rowMove, if_pos hzero] at htrace
  simp only [hzero, Nat.zero_add] at hcells hframe
  refine ⟨_, rfl, by simpa using htrace, fun r => ?_, hcells, hframe⟩
  rw [hcur]
  split
  · rw [‹r = _›, hzero, Nat.zero_add]
  · rfl

section full
variable {s : State}

/-- A character leaves the cursor of a full primary row at 16 (R80). -/
theorem writeChar_cur0_full (ch : Byte) (h : s.cur0.toNat = 16) : (writeChar s ch).cur0.toNat = 16 := by
  cases writeChar_effect s ch with
  | inert _ ht | padNothing _ _ ht => rw [ht, h]
  | pad _ _ _ cur =>
    have hsecondary := State.workingRow_secondary (Nat.le_of_eq h.symm)
    simpa [hsecondary, h] using cur .primary
  | primary _ h0 => omega
  | secondary _ _ _ _ cur0 | scroll _ _ _ _ cur0 => rw [cur0, h]

end full

/-- Settles O37: characters leave a full primary row's cursor alone, and `INIT` and `CLRS` alone reset it. -/
theorem fullPrimaryStaysFull : Obligations.FullPrimaryStaysFull := by
  refine ⟨State.workingRow_eq, fun i s t hinit hclrs hfull ht => ?_⟩
  obtain rfl := perform_of_exec ht
  suffices h : (perform (opActions i s) s).cur0.toNat = 16 from
    ⟨h, State.workingRow_secondary (Nat.le_of_eq h.symm)⟩
  cases rowsEffect_opActions i s with
  | unchanged _ cur => exact (congrArg BitVec.toNat (cur .primary)).trans hfull
  | chars cs hcs =>
    rw [hcs]
    exact foldl_writeChar_keeps (P := fun u => u.cur0.toNat = 16) (fun _ ch => writeChar_cur0_full ch) cs hfull
  | cleared hi => exact absurd hi (not_or.mpr ⟨hinit, hclrs⟩)

end Sys2Proof.Machine

namespace Sys2Proof.Machine

/-! SUPPORT. What the pin events of an operation do to the pin registers, read off the byte-level events they expand:
write mode, stable frames, and the frame of the last transfer (spec/10_state.md R14, spec/40_bus_transport.md R70,
R72). -/

section expansion
variable {cfg : Config} (p : Pins)

/-- The write line is driven to write mode and to nothing else (R14). -/
theorem setRW_mem_expand {evs : List ByteEvent} {v : Level} (h : .setRW v ∈ evs.flatMap (expand cfg)) :
    v = cfg.rwWrite := by
  obtain ⟨ev, -, h⟩ := List.mem_flatMap.mp h
  cases ev with
  | c | d | q => simpa [expand] using h
  | w | k => simp [expand] at h

/-- A pin register holds what it held, or the last level driven to it: here the write line (R32). -/
theorem foldl_apply_rw (evs : List PinEvent) :
    (evs.foldl Pins.apply p).rw = p.rw ∨ .setRW (evs.foldl Pins.apply p).rw ∈ evs := by
  induction evs generalizing p with
  | nil => exact .inl rfl
  | cons ev evs ih =>
    obtain h | h := ih (p.apply ev)
    · rw [List.foldl_cons, h]
      cases ev with
      | setRW v => exact .inr (.head _)
      | _ => exact .inl rfl
    · exact .inr (.tail _ h)

/-- Each byte-level event's pin events begin and end with the enable line deasserted, and write no other register in
between (R62 to R64, R70). -/
theorem pulsesStable_expand (ev : ByteEvent) (rest : List PinEvent) :
    pulsesStable cfg false (expand cfg ev ++ rest) = pulsesStable cfg false rest := by
  have hoff : cfg.eOff ≠ cfg.eOn := Bool.not_ne_self cfg.eOn
  cases ev <;> simp [expand, pulsesStable, hoff]

theorem pulsesStable_flatMap_expand (evs : List ByteEvent) :
    pulsesStable cfg false (evs.flatMap (expand cfg)) = true := by
  induction evs with
  | nil => rfl
  | cons ev evs ih => rw [List.flatMap_cons, pulsesStable_expand, ih]

/-- Events among which a byte is put on the bus leave the enable line deasserted (R62, R64). -/
theorem foldl_expand_enable_off {evs : List ByteEvent} {b : Byte} (h : .setDB b ∈ evs.flatMap (expand cfg)) :
    ((evs.flatMap (expand cfg)).foldl Pins.apply p).e = cfg.eOff := by
  induction evs generalizing p with
  | nil => cases h
  | cons ev evs ih =>
    rw [List.flatMap_cons, List.foldl_append]
    cases ev with
    | c | d | q => exact (foldl_expand_atRest evs (p := _) ⟨rfl, rfl⟩).2
    | w | k => exact ih _ (by simpa [expand] using h)

/-- Waits and pulses of the watchdog hook leave the pins alone (R63, R108). -/
theorem foldl_expand_quiet {evs : List ByteEvent} (h : ∀ ev ∈ evs, eventFrame cfg ev = none) (hq : .q ∉ evs) :
    (evs.flatMap (expand cfg)).foldl Pins.apply p = p := by
  induction evs with
  | nil => rfl
  | cons ev evs ih =>
    have ih := ih (fun e he => h e (.tail _ he)) fun hmem => hq (.tail _ hmem)
    have hev := h ev (.head _)
    rw [List.flatMap_cons, List.foldl_append]
    cases ev with
    | c | d => cases hev
    | q => exact absurd (.head _) hq
    | w | k => exact ih

/-- `quiesce` is the first event of an operation or none of its events (R64, R67). -/
theorem Blocks.q_notMem {as : List Action} (h : Blocks cfg as) : .q ∉ notesOf as := by
  induction h with
  | none | store | bump | resetRow => exact List.not_mem_nil
  | xfer t b => cases t <;> simp [transferEvent]
  | settle d => cases hw : cfg.wdtEn <;> simp [hw]
  | append _ _ iha ihb => simp [iha, ihb]

end expansion

/-- After its first event an operation has no `Q` (R67). -/
theorem q_notMem_tail_notesOf (i : Instr) (s : State) : .q ∉ (notesOf (opActions i s)).tail := by
  obtain ⟨-, -, h⟩ | ⟨-, as, has, h⟩ := opActions_blocks i s
  · exact fun hmem => h.q_notMem (List.mem_of_mem_tail hmem)
  · rw [has]
    exact h.q_notMem

/-- Settles O23: an operation's pin events expand its byte-level events, and no event drives the write line
otherwise. -/
theorem writeLineIsOnlyDrivenToWrite : Obligations.WriteLineIsOnlyDrivenToWrite := by
  intro i s t ht
  obtain rfl := perform_of_exec ht
  have hwrite : ∀ v, .setRW v ∈ pinsOf (opActions i s) → v = s.cfg.rwWrite := fun v hv => by
    rw [expands_opActions] at hv
    exact setRW_mem_expand hv
  refine ⟨_, perform_pinTrace _ s, hwrite, ?_⟩
  rw [perform_pins]
  exact (foldl_apply_rw s.pins _).imp_right (hwrite _)

/-- Settles O21: the pin events are expansions, each of which closes its own pulse, and an operation that emits puts a
byte on the bus. -/
theorem framesAreStable : Obligations.FramesAreStable := by
  intro i s t ht
  obtain rfl := perform_of_exec ht
  have hexpands := expands_opActions i s
  refine ⟨_, perform_pinTrace _ s, by rw [hexpands]; exact pulsesStable_flatMap_expand _, ?_⟩
  rw [perform_pins]
  obtain h | ⟨b, h⟩ := drivesBus_opActions i s
  · exact .inl ⟨h, by rw [h]; rfl⟩
  · rw [hexpands] at h ⊢
    exact .inr (foldl_expand_enable_off s.pins h)

/-- Settles O22: the last transfer leaves its frame on the pins, and the events after it, no `Q` among them, leave the
pins alone. -/
theorem pinsHoldTheLastTransfer : Obligations.PinsHoldTheLastTransfer := by
  intro i s t tag b before rest ht htrace hrest
  obtain rfl := perform_of_exec ht
  rw [perform_trace, List.append_cancel_left_eq] at htrace
  have hq : .q ∉ rest := fun hmem => q_notMem_tail_notesOf i s (by rw [htrace]; cases before <;> simp [hmem])
  have hpins : (perform (opActions i s) s).pins =
      { oe := ((before.flatMap (expand s.cfg)).foldl Pins.apply s.pins).oe, rs := tagLevel s.cfg tag
        rw := s.cfg.rwWrite, e := s.cfg.eOff, db := busByte s.cfg b } := by
    rw [perform_pins, expands_opActions, htrace, List.flatMap_append, List.flatMap_cons, List.foldl_append,
      List.foldl_append, foldl_expand_transfer, foldl_expand_quiet _ hrest hq]
  rw [hpins]
  exact ⟨rfl, rfl, rfl, rfl⟩

end Sys2Proof.Machine

namespace Sys2Proof.Machine

/-! SUPPORT. How many events of each kind an operation emits, and how long it lasts at least
(spec/41_line_buffer.md R94, spec/70_reset_and_hazards.md R130, R131). -/

section counts
variable {s : State} {ch : Byte}

/-- A character of another class than visible emits nothing (R82, R83). -/
theorem notesOf_wrch_not_visible (hc : charClass s.cfg ch ≠ .visible) : notesOf (wrchActions ch s) = [] := by
  cases hclass : charClass s.cfg ch with
  | carriageReturn => rw [wrchActions_carriageReturn s ch hclass]; rfl
  | newline => rw [wrchActions_newline s ch hclass, notesOf_pad]
  | visible => exact absurd hclass hc

variable (hc : charClass s.cfg ch = .visible)
include hc

/-- The first character of a row: the row move and the data byte (R94). -/
theorem countEvents_wrch_fresh (h : (s.cur s.workingRow).toNat = 0) :
    countEvents (notesOf (wrchActions ch s)) = ⟨1, 1, 0, 0, 0⟩ := by
  rw [notesOf_wrch_put hc (by omega), rowMove, if_pos h]
  rfl

/-- Any other character that fits its row: the data byte (R94). -/
theorem countEvents_wrch_middle (h : 0 < (s.cur s.workingRow).toNat) (hroom : (s.cur s.workingRow).toNat < 16) :
    countEvents (notesOf (wrchActions ch s)) = ⟨0, 1, 0, 0, 0⟩ := by
  rw [notesOf_wrch_put hc hroom, rowMove, if_neg (Nat.ne_of_gt h)]
  rfl

/-- A character on a full display: five commands, 32 bytes sent again and the character's own (R85, R94). -/
theorem countEvents_wrch_scroll (h : 16 ≤ (s.cur s.workingRow).toNat) :
    countEvents (notesOf (wrchActions ch s)) = ⟨5, 33, 0, 0, 0⟩ := by
  obtain ⟨h0, h1⟩ := State.both_full h
  rw [wrchActions_secondary s ch hc h0, notesOf_putSecondary_scroll s ch h1, notesOf_scrollUp]
  rfl

end counts

/-- Where there is no settle wait, events last one enable pulse for each transfer at least (R130, R131). -/
theorem eventsMicros_of_no_wait (cfg : Config) {evs : List ByteEvent} (h : (countEvents evs).w = 0) :
    eventsMicros (evs.flatMap (expand cfg)) = 80 * ((countEvents evs).c + (countEvents evs).d) := by
  induction evs with
  | nil => rfl
  | cons ev evs ih =>
    rw [List.flatMap_cons, eventsMicros_append]
    cases ev with
    | w d => cases h
    | c | d => rw [ih h]; simp [countEvents]; omega
    | k | q => rw [ih h]; simp [countEvents]

/-- Settles O38: the events are those `notesOf` lists for each operation, and the clause on the cursors decides which
row a visible character goes to and whether that row is fresh or full. -/
theorem eventCountsOfHostOperations : Obligations.EventCountsOfHostOperations := by
  intro s i t evs ht htrace
  rw [← perform_of_exec ht, perform_trace, List.append_cancel_left_eq] at htrace
  subst htrace
  refine ⟨?init, ?clrs, ?rsvd, ?inert, ?visible⟩
  case init =>
    rintro rfl
    rw [opActions, initActions, notesOf_append, notesOf_tInit]
    cases s.cfg.wdtEn <;> rfl
  case clrs =>
    rintro rfl
    rw [opActions, clrsActions, notesOf_append, notesOf_tClear]
    cases s.cfg.wdtEn <;> rfl
  case rsvd =>
    rintro rfl
    rfl
  case inert =>
    rintro ch rfl hc
    rw [opActions, notesOf_wrch_not_visible hc]
    rfl
  case visible =>
    rintro ch rfl hc
    have hprimary (h : s.cur0.toNat < 16) : s.cur s.workingRow = s.cur0 := by rw [State.workingRow_primary h]; rfl
    have hsecondary (h : 16 ≤ s.cur0.toNat) : s.cur s.workingRow = s.cur1 := by
      rw [State.workingRow_secondary h]; rfl
    refine ⟨fun h0 => ?_, fun ⟨h0, h0'⟩ => ?_, fun ⟨h0, h1⟩ => ?_, fun ⟨h0, h1, h1'⟩ => ?_,
      fun ⟨h0, h1⟩ => ?_⟩
    · exact countEvents_wrch_fresh hc (by rw [hprimary (by omega), h0])
    · exact countEvents_wrch_middle hc (by rwa [hprimary h0']) (by rwa [hprimary h0'])
    · exact countEvents_wrch_fresh hc (by rw [hsecondary h0.ge, h1])
    · exact countEvents_wrch_middle hc (by rwa [hsecondary h0.ge]) (by rwa [hsecondary h0.ge])
    · exact countEvents_wrch_scroll hc (by rw [hsecondary h0.ge, h1])

/-- Settles O39: `INIT` and `CLRS` last as long as their transport operations; a character lasts one enable pulse for
each of its transfers. -/
theorem leastDurationsOfHostOperations : Obligations.LeastDurationsOfHostOperations := by
  intro s i t pevs ht htrace
  rw [← perform_of_exec ht, perform_pinTrace, List.append_cancel_left_eq, expands_opActions] at htrace
  subst htrace
  have hchar {evs : List ByteEvent} {c d : Nat} (h : countEvents evs = ⟨c, d, 0, 0, 0⟩) :
      eventsMicros (evs.flatMap (expand s.cfg)) = 80 * (c + d) := by
    rw [eventsMicros_of_no_wait s.cfg (by rw [h]), h]
  refine ⟨?init, ?clrs, ?rsvd, ?inert, ?visible⟩
  case init =>
    rintro rfl
    rw [opActions, initActions, notesOf_append, notesOf_tInit]
    cases s.cfg.wdtEn <;> simp [notesOf, Duration.minMicros]
  case clrs =>
    rintro rfl
    rw [opActions, clrsActions, notesOf_append, notesOf_tClear]
    cases s.cfg.wdtEn <;> simp [notesOf, Duration.minMicros]
  case rsvd =>
    rintro rfl
    rfl
  case inert =>
    rintro ch rfl hc
    rw [opActions, notesOf_wrch_not_visible hc]
    rfl
  case visible =>
    rintro ch rfl hc
    exact ⟨fun h => hchar (countEvents_wrch_fresh hc (by rw [h]; rfl)),
      fun ⟨h, hroom⟩ => hchar (countEvents_wrch_middle hc h hroom), fun h => hchar (countEvents_wrch_scroll hc h)⟩

end Sys2Proof.Machine

namespace Sys2Proof.Machine

/-! SUPPORT. The watchdog hook: an operation goes through the same lines with `WDT_EN` set and clear, but for the pulses
(spec/60_exceptions.md R108). -/

/-- A line that is a pulse of the watchdog hook or the record of one. -/
def Action.isKick : Action → Bool
  | .pin ev => decide (ev = .kick)
  | .note ev => decide (ev = .k)
  | .store _ _ => false
  | .bump _ => false
  | .resetRow _ => false

/-- The lines without the watchdog's. -/
def dropKicks (as : List Action) : List Action := as.filter fun a => !a.isKick

section dropKicks
variable (as bs : List Action) (s : State)

@[simp] theorem dropKicks_append : dropKicks (as ++ bs) = dropKicks as ++ dropKicks bs := List.filter_append ..

theorem notesOf_dropKicks : notesOf (dropKicks as) = (notesOf as).filter fun ev => decide (ev ≠ .k) := by
  induction as with
  | nil => rfl
  | cons a as ih =>
    cases a with
    | note ev => by_cases h : ev = .k <;> simpa [dropKicks, Action.isKick, notesOf, h] using ih
    | pin ev => by_cases h : ev = .kick <;> simpa [dropKicks, Action.isKick, notesOf, h] using ih
    | _ => exact ih

theorem pinsOf_dropKicks : pinsOf (dropKicks as) = (pinsOf as).filter fun ev => decide (ev ≠ .kick) := by
  induction as with
  | nil => rfl
  | cons a as ih =>
    cases a with
    | note ev => by_cases h : ev = .k <;> simpa [dropKicks, Action.isKick, pinsOf, h] using ih
    | pin ev => by_cases h : ev = .kick <;> simpa [dropKicks, Action.isKick, pinsOf, h] using ih
    | _ => exact ih

theorem writesOf_dropKicks : writesOf (dropKicks as) = writesOf as := by
  induction as with
  | nil => rfl
  | cons a as ih =>
    cases a with
    | note ev => by_cases h : ev = .k <;> simpa [dropKicks, Action.isKick, writesOf, h] using ih
    | pin ev => by_cases h : ev = .kick <;> simpa [dropKicks, Action.isKick, writesOf, h] using ih
    | _ => exact congrArg (_ :: ·) ih

/-- A pulse of the watchdog hook changes no pin (R108). -/
theorem foldl_apply_filter_kick (evs : List PinEvent) (p : Pins) :
    (evs.filter fun ev => decide (ev ≠ .kick)).foldl Pins.apply p = evs.foldl Pins.apply p := by
  induction evs generalizing p with
  | nil => rfl
  | cons ev evs ih =>
    by_cases h : ev = .kick
    · simpa [h] using ih p
    · simpa [h] using ih (p.apply ev)

/-- Lines that differ in the watchdog's only lead to states that differ in the traces only (R108). -/
theorem perform_of_dropKicks_eq {as bs : List Action} (h : dropKicks as = dropKicks bs) (s : State) :
    perform as s = { perform bs s with trace := s.trace ++ notesOf as, pinTrace := s.pinTrace ++ pinsOf as } := by
  have hwrites : writesOf as = writesOf bs := by rw [← writesOf_dropKicks, h, writesOf_dropKicks]
  have hpins : (pinsOf as).foldl Pins.apply s.pins = (pinsOf bs).foldl Pins.apply s.pins := by
    rw [← foldl_apply_filter_kick, ← pinsOf_dropKicks, h, pinsOf_dropKicks, foldl_apply_filter_kick]
  rw [perform_eq, perform_eq bs s, hwrites, hpins]

/-- No line writes or reads the parameters (R17). -/
theorem perform_withCfg (cfg : Config) : perform as { s with cfg := cfg } = { perform as s with cfg := cfg } := by
  induction as generalizing s with
  | nil => rfl
  | cons a as ih =>
    have hrun : a.run { s with cfg := cfg } = { a.run s with cfg := cfg } := by
      cases a with
      | pin | note | store => rfl
      | bump r | resetRow r => cases r <;> rfl
    rw [perform_cons, hrun, ih, perform_cons]

end dropKicks

/-- The state with `WDT_EN` set to `w` and everything else as it is (R4). -/
def State.withWatchdog (s : State) (w : Bool) : State := { s with cfg := { s.cfg with wdtEn := w } }

section watchdog
variable (cfg : Config) (w : Bool) (s : State)

/-- A settle wait is its wait alone, but for the watchdog's lines (R63). -/
theorem dropKicks_settle (d : Duration) : dropKicks (settle cfg d) = [.pin (.wait d), .note (.w d)] := by
  cases hw : cfg.wdtEn <;> simp [settle, kickHook, hw, dropKicks, Action.isKick]

theorem dropKicks_tInit : dropKicks (tInitActions { cfg with wdtEn := w }) = dropKicks (tInitActions cfg) := by
  simp only [tInitActions, dropKicks_append, dropKicks_settle]
  rfl

theorem dropKicks_tClear : dropKicks (tClearActions { cfg with wdtEn := w }) = dropKicks (tClearActions cfg) := by
  simp only [tClearActions, dropKicks_append, dropKicks_settle]
  rfl

/-- `WRCH` has no settle wait, so its lines do not depend on `WDT_EN` (R81 to R86). -/
theorem wrchActions_withWatchdog (ch : Byte) :
    wrchActions ch (s.withWatchdog w) = wrchActions ch s := rfl

theorem wrstrLines_withWatchdog (cs : List Byte) :
    opActions.wrstrLines cs (s.withWatchdog w) = opActions.wrstrLines cs s := by
  induction cs generalizing s with
  | nil => rfl
  | cons c cs ih =>
    have hchar : writeChar (s.withWatchdog w) c = (writeChar s c).withWatchdog w := by
      rw [writeChar, wrchActions_withWatchdog, State.withWatchdog, perform_withCfg, State.withWatchdog, writeChar,
        perform_cfg]
    rw [opActions.wrstrLines, hchar, ih, wrchActions_withWatchdog, opActions.wrstrLines]

/-- An operation goes through the same lines with either value of `WDT_EN`, but for the watchdog's (R108). -/
theorem dropKicks_opActions (i : Instr) :
    dropKicks (opActions i (s.withWatchdog w)) = dropKicks (opActions i s) := by
  cases i with
  | init => simp only [opActions, initActions, State.withWatchdog, dropKicks_append, dropKicks_tInit]
  | clrs => simp only [opActions, clrsActions, State.withWatchdog, dropKicks_append, dropKicks_tClear]
  | tInit => exact dropKicks_tInit s.cfg w
  | tClear => exact dropKicks_tClear s.cfg w
  | wrstr cs => exact congrArg dropKicks (wrstrLines_withWatchdog w s cs)
  | wrch | rsvd | tCmd | tData => rfl

variable {cfg}

/-- With `WDT_EN` clear the hook emits nothing (R63). -/
theorem Blocks.k_notMem {as : List Action} (h : Blocks cfg as) (hw : cfg.wdtEn = false) : .k ∉ notesOf as := by
  induction h with
  | none | store | bump | resetRow => exact List.not_mem_nil
  | xfer t b => cases t <;> simp [transferEvent]
  | settle d => simp [hw]
  | append _ _ iha ihb => simp [iha, ihb]

theorem k_notMem_notesOf (i : Instr) {s : State} (hw : s.cfg.wdtEn = false) : .k ∉ notesOf (opActions i s) := by
  obtain ⟨-, -, h⟩ | ⟨-, as, has, h⟩ := opActions_blocks i s
  · exact h.k_notMem hw
  · rw [has]
    simpa using h.k_notMem hw

/-- A pulse on the watchdog output is the expansion of a `K` and of no other event (R73). -/
theorem kick_mem_expand {evs : List ByteEvent} (h : .kick ∈ evs.flatMap (expand cfg)) : .k ∈ evs := by
  obtain ⟨ev, hev, h⟩ := List.mem_flatMap.mp h
  cases ev with
  | k => exact hev
  | _ => simp [expand] at h

end watchdog

/-- Settles O26: the lines with the other flag value are the same but for the watchdog's, which change the traces
only. -/
theorem watchdogShowsAsKicksOnly : Obligations.WatchdogShowsAsKicksOnly := by
  intro i s t w ht
  obtain rfl := perform_of_exec ht
  have hlines := dropKicks_opActions w s i
  refine ⟨_, notesOf (opActions i (s.withWatchdog w)), pinsOf (opActions i (s.withWatchdog w)),
    exec_eq_perform i (s.withWatchdog w), ?state, ?trace, ?pinTrace, fun hw => ⟨?k, ?kick⟩⟩
  case state =>
    rw [State.withWatchdog, perform_withCfg, ← State.withWatchdog, perform_of_dropKicks_eq hlines s]
  case trace =>
    have hnotes := congrArg notesOf hlines
    rw [notesOf_dropKicks, notesOf_dropKicks] at hnotes
    rw [perform_trace, perform_trace, List.filter_append, List.filter_append, hnotes]
    rfl
  case pinTrace =>
    have hpins := congrArg pinsOf hlines
    rw [pinsOf_dropKicks, pinsOf_dropKicks] at hpins
    rw [perform_pinTrace, perform_pinTrace, List.filter_append, List.filter_append, hpins]
    rfl
  case k => exact k_notMem_notesOf i (s := s.withWatchdog w) hw
  case kick =>
    intro hmem
    rw [expands_opActions] at hmem
    exact k_notMem_notesOf i (s := s.withWatchdog w) hw (kick_mem_expand hmem)

end Sys2Proof.Machine

namespace Sys2Proof.Machine

/-! SUPPORT. The classes of a character and the cycles of a wait (spec/30_encoding.md R52,
spec/70_reset_and_hazards.md R132). -/

section classes
variable (cfg : Config) (ch : Byte)

theorem charClass_eq_carriageReturn_iff : charClass cfg ch = .carriageReturn ↔ ch = cfg.chCr := by
  by_cases hcr : ch = cfg.chCr
  · simp [charClass, hcr]
  · by_cases hnl : ch = cfg.chNl <;> simp [charClass, hcr, hnl]

theorem charClass_eq_visible_iff : charClass cfg ch = .visible ↔ ch ≠ cfg.chCr ∧ ch ≠ cfg.chNl := by
  by_cases hcr : ch = cfg.chCr
  · simp [charClass, hcr]
  · rw [charClass, if_neg hcr]
    by_cases hnl : ch = cfg.chNl <;> simp [hcr, hnl]

/-- The newline code is the other special one, where the two differ (R4, R52). -/
theorem charClass_eq_newline_iff (h : cfg.wf = true) : charClass cfg ch = .newline ↔ ch = cfg.chNl := by
  constructor
  · intro hclass
    by_contra hnl
    by_cases hcr : ch = cfg.chCr <;> simp [charClass, hcr, hnl] at hclass
  · rintro rfl
    exact charClass_chNl cfg h

/-- Two different bytes taken away from the 256 leave 254. -/
theorem countP_bytes_ne_ne {a b : Byte} (hne : a ≠ b) :
    (List.range 256).countP (fun n => decide (BitVec.ofNat 8 n ≠ a ∧ BitVec.ofNat 8 n ≠ b)) = 254 := by
  have hnum : ∀ n ∈ List.range 256, (decide (BitVec.ofNat 8 n ≠ a ∧ BitVec.ofNat 8 n ≠ b) = true ↔
      (n != b.toNat && n != a.toNat) = true) := fun n hn => by
    have hmod : n % 256 = n := Nat.mod_eq_of_lt (List.mem_range.mp hn)
    simp [← BitVec.toNat_inj, hmod, and_comm]
  have hmem (c : Byte) : c.toNat ∈ List.range 256 := List.mem_range.mpr c.isLt
  have hnat : b.toNat ≠ a.toNat := fun h => hne (BitVec.eq_of_toNat_eq h.symm)
  have hnodup : (List.range 256).Nodup := List.nodup_range
  have herase : (List.range 256).filter (fun n => n != b.toNat && n != a.toNat) =
      ((List.range 256).erase a.toNat).erase b.toNat := by
    rw [hnodup.erase_eq_filter, (hnodup.filter _).erase_eq_filter, List.filter_filter]
  rw [List.countP_congr hnum, List.countP_eq_length_filter, herase,
    List.length_erase_of_mem ((List.mem_erase_of_ne hnat).mpr (hmem b)), List.length_erase_of_mem (hmem a),
    List.length_range]

end classes

/-- Settles O5: the class is decided by two comparisons, and the two special codes differ. -/
theorem characterClassesSplitTheBytes : Obligations.CharacterClassesSplitTheBytes := by
  intro cfg hwf
  have hne : cfg.chCr ≠ cfg.chNl := fun h => by simp [Config.wf, h] at hwf
  refine ⟨charClass_eq_carriageReturn_iff cfg, fun ch => charClass_eq_newline_iff cfg ch hwf,
    charClass_eq_visible_iff cfg, ?_⟩
  simp only [charClass_eq_visible_iff]
  exact countP_bytes_ne_ne hne

/-- Settles O40: a quotient rounded up is at most `n` exactly when the dividend is at most `n` divisors. -/
theorem waitCyclesCoverTheMinimum : Obligations.WaitCyclesCoverTheMinimum := by
  intro f n d
  rw [waitCycles]
  generalize d.minMicros * f = x
  omega

end Sys2Proof.Machine

namespace Sys2Proof.Machine

/-! SUPPORT. One step at the level of whole operations: the word it takes, and that a program runs its operations in
order (spec/60_exceptions.md R110, spec/30_encoding.md R56, R57). -/

/-- Settles O6: it is the third case of a step. -/
theorem stepRunsThePresentedWord : Obligations.StepRunsThePresentedWord :=
  fun _ _ _ => step_of_word

/-- Settles O8: it is the second case of a step. -/
theorem idleCoreHoldsEverything : Obligations.IdleCoreHoldsEverything :=
  fun _ => step_of_no_word

/-- Settles O7: a 10-bit number is a word of the port, so `withFetchWord` presents it, and the next step takes it. -/
theorem stepRunsTheFetchWord : Obligations.StepRunsTheFetchWord := by
  intro s w hw
  have hmod : w % 2 ^ 16 = w := Nat.mod_eq_of_lt (by omega)
  have hfetch : s.withFetchWord 16 w =
      { s with busy := false, seq := [], script := ⟨.host, BitVec.ofNat 10 w⟩ :: s.script } := by
    rw [State.withFetchWord, hmod, presentHostWord, if_pos hw]
  refine ⟨?_, ?_⟩
  · rw [decodeTableWord, hmod, decodeNumber, if_pos hw]
    rfl
  · rw [hfetch]
    exact step_of_word (s := { s with busy := false, seq := [], script := ⟨.host, BitVec.ofNat 10 w⟩ :: s.script })
      rfl rfl

section program
variable (s : State) (ps : List Presented)

theorem perform_withScript (as : List Action) :
    perform as { s with script := ps } = { perform as s with script := ps } :=
  (perform_frame s as s.busy s.seq ps).trans
    (State.ext_fields rfl rfl rfl rfl rfl (perform_busy s as).symm (perform_seq s as).symm rfl rfl rfl)

/-- The lines of an operation do not depend on the words still to be presented. -/
theorem opActions_withScript (i : Instr) : opActions i { s with script := ps } = opActions i s := by
  cases i with
  | wrstr cs =>
    simp only [opActions]
    induction cs generalizing s with
    | nil => rfl
    | cons c cs ih =>
      have hchar : writeChar { s with script := ps } c = { writeChar s c with script := ps } :=
        perform_withScript s ps (wrchActions c s)
      rw [opActions.wrstrLines, hchar, ih, opActions.wrstrLines]
      rfl
  | _ => rfl

/-- An operation takes nothing from the words still to be presented. -/
theorem perform_opActions_withScript (i : Instr) :
    perform (opActions i { s with script := ps }) { s with script := ps } =
      { perform (opActions i s) s with script := ps } := by
  rw [opActions_withScript, perform_withScript]

end program

/-- A sequence of operations completes, so what follows it starts from the state it leaves (R40, R100). -/
theorem execAll_append (is js : List Instr) (s : State) : ∃ t, execAll is s = .next t ∧
    execAll (is ++ js) s = execAll js t := by
  induction is generalizing s with
  | nil => exact ⟨s, rfl, rfl⟩
  | cons i is ih =>
    obtain ⟨t, hfirst, hboth⟩ := ih (perform (opActions i s) s)
    refine ⟨t, ?_, ?_⟩
    · rw [execAll, exec_eq_perform]
      exact hfirst
    · rw [List.cons_append, execAll, exec_eq_perform]
      exact hboth

/-- The operations an operation's words stand for do together what the operation does (R57, R89). -/
theorem execAll_expansion (i : Instr) (s : State) : execAll i.expansion s = exec i s := by
  cases i with
  | wrstr cs => exact execAll_map_wrch cs s
  | _ => rfl

theorem execAll_flatMap_expansion (p : List Instr) (s : State) :
    execAll (p.flatMap Instr.expansion) s = execAll p s := by
  induction p generalizing s with
  | nil => rfl
  | cons i p ih =>
    obtain ⟨t, hfirst, hboth⟩ := execAll_append i.expansion (p.flatMap Instr.expansion) s
    rw [execAll_expansion] at hfirst
    rw [List.flatMap_cons, hboth, ih, execAll, hfirst]

/-- A run goes on from the state its first step answers. -/
theorem run_succ {M : Host.Core} {k : Nat} {s t : M.State} (h : M.step s = .next t) : M.run (k + 1) s = M.run k t := by
  simp only [Host.Core.run, h]

/-- One step for each word presented to an idle core runs the operations the words decode to, in order (R110). -/
theorem run_words (ws : List Presented) (s : State) (hb : s.busy = false) :
    Host.Core.run Sys2Proof.core ws.length { s with script := ws } =
      execAll (ws.map fun p => decode p.iface p.word) { s with script := [] } := by
  induction ws generalizing s with
  | nil => rfl
  | cons w ws ih =>
    have hstep : Sys2Proof.core.step { s with script := w :: ws } =
        .next { perform (opActions (decode w.iface w.word) s) s with script := ws } := by
      refine (step_of_word (s := { s with script := w :: ws }) hb rfl).trans ?_
      rw [exec_eq_perform]
      exact congrArg Host.Outcome.next (perform_opActions_withScript s ws _)
    rw [List.length_cons, run_succ hstep, List.map_cons, execAll, exec_eq_perform, perform_opActions_withScript s []]
    exact ih _ ((perform_busy _ _).trans hb)

/-- Settles O11: the words of a program decode to the expansions of its operations, one after the other. -/
theorem programRunsInOrder : Obligations.ProgramRunsInOrder := by
  intro p s hb
  have hwords : (Program.words p).map (fun w => decode w.iface w.word) = p.flatMap Instr.expansion := by
    rw [Program.words, List.map_flatMap]
    exact List.flatMap_congr fun i _ => map_decode_encode i
  rw [State.withProgram, run_words _ s hb, hwords, execAll_flatMap_expansion]

end Sys2Proof.Machine

namespace Sys2Proof.Machine

/-! SUPPORT. The command port: what its ticks do to an idle and to a busy core, and that they take an accepted operation
to the state `exec` gives (spec/30_encoding.md R58, spec/70_reset_and_hazards.md R115). -/

section tick
variable {p : PortIn} {s : State}

theorem tick_of_reset (h : p.rstN = false) : tick p s = hardReset s := by rw [tick, if_pos h]

theorem tick_of_busy (h : p.rstN = true) (hb : s.busy = true) : tick p s = advance s := by simp [tick, h, hb]

theorem tick_of_word (h : p.rstN = true) (hb : s.busy = false) (hv : p.cmdValid = true) :
    tick p s = accept (decode .host p.hostWord) s := by simp [tick, h, hb, hv]

theorem tick_of_no_word (h : p.rstN = true) (hb : s.busy = false) (hv : p.cmdValid = false) : tick p s = s := by
  simp [tick, h, hb, hv]

end tick

/-- Settles O51: it is the last case of a tick. -/
theorem idlePortHoldsEverything : Obligations.IdlePortHoldsEverything :=
  fun _ _ hb hr => tick_of_no_word hr hb

/-- Settles O47: reset is the first case of a tick, and after it no line is driven. -/
theorem hardwareResetWins : Obligations.HardwareResetWins := by
  intro p s h
  rw [tick_of_reset h]
  exact ⟨rfl, rfl⟩

section parameters
variable (s : State)

theorem finish_cfg : (finish s).cfg = s.cfg := perform_cfg s s.seq

/-- The end of the operation in progress has the parameters of the core, and a tick leaves that end as it was. -/
theorem advance_cfg : (advance s).cfg = s.cfg := by
  rw [← finish_cfg, finish_advance, finish_cfg]

theorem tick_cfg (p : PortIn) : (tick p s).cfg = s.cfg := by
  unfold tick
  split_ifs
  · rfl
  · exact advance_cfg s
  · rfl
  · rfl

theorem step_cfg {t : State} (h : step s = .next t) : t.cfg = s.cfg := by
  cases hb : s.busy with
  | true =>
    rw [step_of_busy hb, Host.Outcome.next.injEq] at h
    rw [← h, finish_cfg]
  | false =>
    obtain rfl | ⟨i, rest, rfl⟩ := step_idle_cases hb h
    · rfl
    · exact perform_cfg _ _

end parameters

/-- Settles O45: no line writes the parameters, `busy`, the sequencer or the script. -/
theorem parametersNeverChange : Obligations.ParametersNeverChange := by
  refine ⟨fun i s t ht => ?_, fun s t => step_cfg s, fun p s => tick_cfg s p⟩
  obtain rfl := perform_of_exec ht
  exact ⟨perform_cfg _ _, perform_busy _ _, perform_seq _ _, perform_script _ _⟩

section run
variable {s : State}

/-- The end of an operation just accepted is the state it leads to as a whole (R18, R58). -/
theorem finish_accept (i : Instr) (hb : s.busy = false) (hseq : s.seq = []) :
    finish (accept i s) = perform (opActions i s) s := by
  rw [finish, accept, perform_seq_busy]
  exact State.ext_fields rfl rfl rfl rfl rfl (by rw [perform_busy, hb]) (by rw [perform_seq, hseq]) rfl rfl rfl

/-- `busy` is up as long as a line is left (R18). -/
theorem advance_busy (s : State) : (advance s).busy = !(advance s).seq.isEmpty := by
  unfold advance
  split <;> rfl

/-- The tick that takes the last pin event ends the operation (R18, R133). -/
theorem advance_eq_finish (h : s.seq.countP Action.isPin ≤ 1) : advance s = finish s := by
  have hbusy : (advance s).busy = false := by
    rw [(advance_count s).2, decide_eq_false_iff_not]
    omega
  have hseq : (advance s).seq = [] := by simpa [hbusy] using advance_busy s
  rw [← finish_advance, finish, hseq, perform_nil]
  exact State.ext_fields rfl rfl rfl rfl rfl hbusy hseq rfl rfl rfl

/-- A tick before that one leaves the core busy with one pin event less (R18, R58). -/
theorem advance_busy_of_count (h : 1 < s.seq.countP Action.isPin) :
    (advance s).busy = true ∧ busyTicks (advance s).seq + 1 = busyTicks s.seq := by
  obtain ⟨hcount, hbusy⟩ := advance_count s
  refine ⟨by rw [hbusy, decide_eq_true h], ?_⟩
  rw [busyTicks, busyTicks, hcount]
  omega

/-- Before its last tick a core without reset is busy with the same operation, which ends in the same state. -/
theorem ticks_before_end (ps : List PortIn) (hb : s.busy = true) (hr : ∀ q ∈ ps, q.rstN = true)
    (hlen : ps.length < busyTicks s.seq) :
    (ticks ps s).busy = true ∧ finish (ticks ps s) = finish s ∧
      busyTicks (ticks ps s).seq + ps.length = busyTicks s.seq := by
  induction ps generalizing s with
  | nil => exact ⟨hb, rfl, rfl⟩
  | cons p ps ih =>
    rw [List.length_cons] at hlen
    have hmore : 1 < s.seq.countP Action.isPin := by rw [busyTicks] at hlen; omega
    obtain ⟨hbusy, hcount⟩ := advance_busy_of_count hmore
    obtain ⟨ihBusy, ihFinish, ihCount⟩ := ih hbusy (fun q hq => hr q (.tail _ hq)) (by omega)
    have htick : ticks (p :: ps) s = ticks ps (advance s) := by
      rw [ticks, List.foldl_cons, tick_of_busy (hr p (.head _)) hb, ticks]
    rw [htick, List.length_cons]
    exact ⟨ihBusy, ihFinish.trans (finish_advance s), by omega⟩

/-- With its last tick the core is where the operation as a whole leads. -/
theorem ticks_to_end (ps : List PortIn) (hb : s.busy = true) (hr : ∀ q ∈ ps, q.rstN = true)
    (hlen : ps.length = busyTicks s.seq) : ticks ps s = finish s := by
  have hpos : 0 < busyTicks s.seq := Nat.le_max_left 1 _
  obtain rfl | ⟨qs, q, rfl⟩ := List.eq_nil_or_concat ps
  · rw [← hlen] at hpos
    cases hpos
  · rw [List.length_concat] at hlen
    obtain ⟨hbusy, hfinish, hcount⟩ := ticks_before_end qs hb (fun p hp => hr p (by simp [hp])) (by omega)
    have hlast : (ticks qs s).seq.countP Action.isPin ≤ 1 := by
      have hone : busyTicks (ticks qs s).seq = 1 := by omega
      exact hone ▸ Nat.le_max_right 1 _
    rw [ticks, List.concat_eq_append, List.foldl_concat, ← ticks, tick_of_busy (hr q (by simp)) hbusy,
      advance_eq_finish hlast, hfinish]

end run

/-- The pin events among the lines, by any function that picks them out (R7). -/
theorem pinsOf_eq_filterMap {f : Action → Option PinEvent} (hpin : ∀ ev, f (.pin ev) = some ev)
    (hother : ∀ a, pinsOf [a] = [] → f a = none) (as : List Action) : pinsOf as = as.filterMap f := by
  induction as with
  | nil => rfl
  | cons a as ih =>
    cases a with
    | pin ev => rw [List.filterMap_cons_some (hpin ev), pinsOf, ih]
    | _ => rw [List.filterMap_cons_none (hother _ rfl), pinsOf, ih]

/-- The byte-level events among the lines, by any function that picks them out (R7). -/
theorem notesOf_eq_filterMap {f : Action → Option ByteEvent} (hnote : ∀ ev, f (.note ev) = some ev)
    (hother : ∀ a, notesOf [a] = [] → f a = none) (as : List Action) : notesOf as = as.filterMap f := by
  induction as with
  | nil => rfl
  | cons a as ih =>
    cases a with
    | note ev => rw [List.filterMap_cons_some (hnote ev), notesOf, ih]
    | _ => rw [List.filterMap_cons_none (hother _ rfl), notesOf, ih]

/-- Settles O9: a busy core performs what is left of the operation in progress; after fewer ticks than the operation
takes that is the rest of the operation accepted. -/
theorem busyCoreTakesNoWord : Obligations.BusyCoreTakesNoWord := by
  refine ⟨fun s hb => ?_, fun i s ps hb hseq hr hlen => ?_⟩
  · refine ⟨finish s, step_of_busy hb, by rw [finish, perform_eq_foldl], perform_script s s.seq, perform_cfg s s.seq,
      ?pins, ?trace, ?pinTrace⟩
    case pins =>
      rw [← pinsOf_eq_filterMap (fun _ => rfl) fun a ha => by cases a with | pin => cases ha | _ => rfl]
      exact perform_pins s.seq s
    case trace =>
      rw [← notesOf_eq_filterMap (fun _ => rfl) fun a ha => by cases a with | note => cases ha | _ => rfl]
      exact perform_trace s.seq s
    case pinTrace =>
      rw [← pinsOf_eq_filterMap (fun _ => rfl) fun a ha => by cases a with | pin => cases ha | _ => rfl]
      exact perform_pinTrace s.seq s
  · obtain ⟨hbusy, hfinish, -⟩ := ticks_before_end (s := accept i s) ps rfl hr hlen
    rw [step_of_busy hbusy, hfinish, finish_accept i hb hseq, exec_eq_perform]

/-- Settles O50: the word is accepted in the first tick, and each tick after it takes one pin event, to the end. -/
theorem portRunsTheAcceptedOperation : Obligations.PortRunsTheAcceptedOperation := by
  intro s t p ps hb hseq hr hv hps hlen ht
  have hfirst (qs : List PortIn) : ticks (p :: qs) s = ticks qs (accept (decode .host p.hostWord) s) := by
    rw [ticks, List.foldl_cons, tick_of_word hr hb hv, ticks]
  refine ⟨?_, fun k hk => ?_⟩
  · rw [hfirst, ticks_to_end ps rfl hps hlen, finish_accept _ hb hseq, perform_of_exec ht]
  · rw [hfirst]
    exact (ticks_before_end _ rfl (fun q hq => hps q (List.mem_of_mem_take hq))
      (by rw [List.length_take_of_le hk.le]; exact hk.trans_eq hlen)).1

/-- Settles O48: after hardware reset the primary row is fresh, and a character leaves `OE` clear. -/
theorem characterBeforeInitDrivesNoLine : Obligations.CharacterBeforeInitDrivesNoLine := by
  intro cfg ch hc
  obtain ⟨t, evs, hexec, rfl, ht, hcells⟩ :=
    visibleCharacterFillsThePrimaryRow ch (State.resetOf cfg) hc (Nat.zero_lt_succ 15)
  have hoe : t.pins.oe = false := by rw [ht]; rfl
  obtain ⟨hrs, hrw, he, hdb⟩ := State.outputs_of_not_driven hoe
  exact ⟨t, hexec, by rw [ht]; rfl, by rw [ht]; rfl, by rw [ht]; rfl, hcells _, hoe, he, hrs, hrw, hdb⟩

end Sys2Proof.Machine
